-- ==== Sys2Proof/Word.lean ====
section
/-!
DEFINITION. The word types of the GRD codec block (spec 00_scope.md R6, R7; 30_encoding.md R90 to R92).

Bit 0 is the least significant bit of every value and every value is unsigned (R7).
-/

namespace Sys2Proof

/-- One byte of data memory, of a plane or of a stream (R9, R70). -/
abbrev Byte := BitVec 8

/-- A 16-bit register or header field (10_state.md R24, 43_container.md R180). -/
abbrev Half := BitVec 16

/-- A 32-bit register, command word, address or length; REG_W = ADDR_W = 32 (R6). -/
abbrev Word := BitVec 32

/-- A register index; REG_IDX_W = 6 (R6), 64 indices (10_state.md R23). -/
abbrev RegIdx := BitVec 6

/-- A host transaction in format HOST39: WE at bit 38, IDX at 37:32, DATA at 31:0 (R91). -/
abbrev Transaction := BitVec 39

/-- What the block decodes: a command word (format CMD32, R92) or a host transaction (format HOST39, R91). -/
inductive InstrWord where
  | cmd32 (w : Word)
  | host39 (t : Transaction)
  deriving DecidableEq, Repr

end Sys2Proof
end

