-- ==== Sys2Proof/Syntax.lean ====
section
/-!
DEFINITION. The instructions: one constructor for each of the ten rows of spec/opcode_table.json
(30_encoding.md R94: the eight commands, and the two host transactions, which "are instructions too").
-/

namespace Sys2Proof

/-- An instruction. The eight commands carry no operand: every operand is read from a fixed named register
(30_encoding.md R93). The two host transactions carry the fields of HOST39 (R91); REG_READ ignores DATA, so it
has no data argument. -/
inductive Instr where
  /-- RLE_ENC, command word 0x00000001 (41_rle.md R138). -/
  | rleEnc
  /-- RLE_DEC, command word 0x00000002 (41_rle.md R139). -/
  | rleDec
  /-- PLANE_SPLIT, command word 0x00000003 (42_planar.md R163). -/
  | planeSplit
  /-- PLANE_MERGE, command word 0x00000004 (42_planar.md R164). -/
  | planeMerge
  /-- HDR_WRITE, command word 0x00000005 (43_container.md R182). -/
  | hdrWrite
  /-- HDR_READ, command word 0x00000006 (43_container.md R184, R185). -/
  | hdrRead
  /-- GRD_PACK, command word 0x00000007 (43_container.md R183). -/
  | grdPack
  /-- GEOM_DEFAULT, command word 0x00000008 (43_container.md R186). -/
  | geomDefault
  /-- REG_WRITE of `data` to the register at `idx` (40_host_interface.md R110). -/
  | regWrite (idx : RegIdx) (data : Word)
  /-- REG_READ of the register at `idx` (40_host_interface.md R111). -/
  | regRead (idx : RegIdx)
  deriving DecidableEq, Repr

end Sys2Proof
end

