-- ==== Sys2Proof/WellFormed.lean ====
section
/-!
DEFINITION. What is well formed before anything is decoded or run.

An `Instr` needs no check of its own: every 6-bit index and every 32-bit datum is legal (30_encoding.md R91, "Every
39-bit pattern is a valid transaction"; 10_state.md R25), and the widths are in the types. What can be ill formed
is what stands BEFORE an `Instr`: a command word (R92), the numbers a host program writes (R97), and a number that
the opcode table gives in whole bytes (40 bits for the 39 of HOST39).
-/

namespace Sys2Proof

/-- `legal(w)` of R92: RSV, bits 31:8, is 0 and OP, bits 7:0, is one of 0x01 to 0x08. -/
def legalCommand (w : Word) : Bool :=
  w.toNat / 256 == 0 && decide (1 ≤ w.toNat % 256) && decide (w.toNat % 256 ≤ 8)

/-- A register index written in a host program fits IDX (R91, R97): 0x00 to 0x3F. -/
def indexFits (idx : Nat) : Bool := decide (idx < 64)

/-- A value written in a host program fits DATA (R91, R97): 32 bits. -/
def dataFits (v : Nat) : Bool := decide (v < 2 ^ 32)

/-- A number of `nbits` bits is one word of a format: 32 bits for CMD32 (R92), 39 bits, alone or in five whole bytes
with bit 39 clear, for HOST39 (R91). -/
def tableWordFits (nbits w : Nat) : Bool :=
  (nbits == 32 && decide (w < 2 ^ 32)) || ((nbits == 39 || nbits == 40) && decide (w < 2 ^ 39))

end Sys2Proof
end

