-- ==== Sys2Proof/Decode.lean ====
section
/-!
DEFINITION. The decoder, total on every command word and every host transaction (30_encoding.md R96), and the encoder.
-/

namespace Sys2Proof

/-- Why a word does not decode: the only illegal words are command words (R95); a host transaction has none. -/
inductive DecodeError where
  /-- IllegalCommand: RSV is not 0 or OP is outside 0x01 to 0x08 (R95, 60_exceptions.md R211). -/
  | illegalCommand (w : Word)
  deriving DecidableEq, Repr

/-! ## CMD32 (R92) -/

/-- OP, bits 7:0 of a command word (R92). -/
def cmdOp (w : Word) : BitVec 8 := w.extractLsb' 0 8

/-- RSV, bits 31:8 of a command word (R92). -/
def cmdRsv (w : Word) : BitVec 24 := w.extractLsb' 8 24

/-- The opcode map of R94. -/
def opcodeInstr (op : BitVec 8) : Option Instr :=
  match op.toNat with
  | 0x01 => some .rleEnc
  | 0x02 => some .rleDec
  | 0x03 => some .planeSplit
  | 0x04 => some .planeMerge
  | 0x05 => some .hdrWrite
  | 0x06 => some .hdrRead
  | 0x07 => some .grdPack
  | 0x08 => some .geomDefault
  | _ => none

/-- The command a command word encodes, none where the word is illegal (R92, R95). -/
def decodeCommand (w : Word) : Option Instr :=
  if cmdRsv w = 0 then opcodeInstr (cmdOp w) else none

/-! ## HOST39 (R91) -/

/-- WE, bit 38 of a transaction. -/
def hostWe (t : Transaction) : BitVec 1 := t.extractLsb' 38 1

/-- IDX, bits 37:32 of a transaction. -/
def hostIdx (t : Transaction) : RegIdx := t.extractLsb' 32 6

/-- DATA, bits 31:0 of a transaction. -/
def hostData (t : Transaction) : Word := t.extractLsb' 0 32

/-- The one transaction a 39-bit pattern encodes (R91, R96). -/
def decodeTransaction (t : Transaction) : Instr :=
  if hostWe t = 1 then .regWrite (hostIdx t) (hostData t) else .regRead (hostIdx t)

/-! ## The decoder -/

/-- The decoder: exactly one instruction, or IllegalCommand by name (R96). It reads no state. -/
def decode : InstrWord → Except DecodeError Instr
  | .cmd32 w =>
    match decodeCommand w with
    | some i => .ok i
    | none => .error (.illegalCommand w)
  | .host39 t => .ok (decodeTransaction t)

/-! ## The encoder -/

/-- {WE, IDX, DATA} packed as R91 lays them out. -/
def packTransaction (we : BitVec 1) (idx : RegIdx) (data : Word) : Transaction := we ++ idx ++ data

/-- {RSV = 0, OP} packed as R92 lays them out. -/
def packCommand (op : BitVec 8) : Word := (0#24) ++ op

/-- The words of an instruction, from the tables of R91, R92 and R94. REG_READ ignores DATA (R91); the encoder
writes 0 there, as 95_test_vectors.md does (log entry 11). -/
def encode : Instr → InstrWord
  | .rleEnc => .cmd32 (packCommand 0x01#8)
  | .rleDec => .cmd32 (packCommand 0x02#8)
  | .planeSplit => .cmd32 (packCommand 0x03#8)
  | .planeMerge => .cmd32 (packCommand 0x04#8)
  | .hdrWrite => .cmd32 (packCommand 0x05#8)
  | .hdrRead => .cmd32 (packCommand 0x06#8)
  | .grdPack => .cmd32 (packCommand 0x07#8)
  | .geomDefault => .cmd32 (packCommand 0x08#8)
  | .regWrite idx data => .host39 (packTransaction 1#1 idx data)
  | .regRead idx => .host39 (packTransaction 0#1 idx 0#32)

/-- The transaction that brings an instruction word to the block: a host transaction is its own; a command word is
delivered by REG_WRITE to CMD, index 0x00 (R90, and "delivered_by" of the opcode table). -/
def deliver : InstrWord → Transaction
  | .cmd32 w => packTransaction 1#1 0x00#6 w
  | .host39 t => t

/-- The number of a row of opcode_table.json as an instruction word: 32 bits are CMD32, every other length HOST39. -/
def tableWord (nbits w : Nat) : InstrWord :=
  if nbits = 32 then .cmd32 (BitVec.ofNat 32 w) else .host39 (BitVec.ofNat 39 w)

/-- The instruction the decoder reads from a number as opcode_table.json numbers it; none where the number is no
word of a format or the decoder refuses it. HOST39 has 39 bits, so five whole bytes (nbits = 40) have bit 39 clear
(log entry 9). -/
def decodeTableWord (nbits w : Nat) : Option Instr :=
  if tableWordFits nbits w then
    match decode (tableWord nbits w) with
    | .ok i => some i
    | .error _ => none
  else none

end Sys2Proof
end

