-- ==== Sys2Proof/Config.lean ====
section
/-!
DEFINITION. The implementation parameters of 00_scope.md R6, and the two values the spec leaves open.
-/

namespace Sys2Proof.Config

/-- `MEM_SIZE` = 2^ADDR_W bytes of data memory (R6). -/
def memSize : Nat := 2 ^ 32

/-- `MAX_RUN`, the largest run count of both run kinds (R6, 41_rle.md R134). -/
def maxRun : Nat := 127

/-- `HDR_SIZE`, the bytes of a container header (R6, 43_container.md R180). -/
def hdrSize : Nat := 32

/-- `PACK_TYPE`, the one recognised pack type (R2, R6, 10_state.md R38). -/
def packType : Half := 0x0101#16

/-- `PIXEL_STRIDE`, the bytes of a pixel of an interleaved buffer at both depths (R6, 42_planar.md R160). -/
def pixelStride : Nat := 4

/-- `FILL24`: the byte PLANE_MERGE writes at offset 0 of each pixel at depth 24. The spec leaves it OPEN (R6,
42_planar.md R164, 93_implementation_defined.md I2): it has no body here, so no proof can know its value. DESIGN
CHOICE, safe, log entry 3: one constant for the block, as R6 makes it a parameter of the block. -/
opaque fill24 : Byte

/-- What an address that the memory does not list reads as. DESIGN CHOICE, unsafe for claims about the one constant
State.reset, log entry 4: the spec gives memory no contents (70_reset_and_hazards.md R241, "any byte at any
address"); every contents can be listed. -/
def unlistedByte : Byte := 0x00#8

end Sys2Proof.Config
end

