-- ==== Sys2Proof/Machine/State.lean ====
section
/-!
DEFINITION. The state of the GRD codec block and of the host's side of its interface, as plain data, and reset.

The block's state is the tuple (regs, mem) and nothing else persists between commands (10_state.md R20, R45). It has
no program counter, no general-purpose register and no other register file (R21, R22, R44). `pending` and
`returned` are the host's side: what it still has to do, and what it has read (log entries 1 and 2).
-/

namespace Sys2Proof.Machine

/-- STATUS (10_state.md R28). Its other bits are reserved, read 0 and ignore writes, so nothing is stored for them. -/
structure Status where
  /-- FAULT, bit 0: 1 iff the last command ended with a fault. -/
  fault : Bool
  /-- STICKY, bit 1: set by every fault, cleared by the host's write of 1 or by reset (R29). -/
  sticky : Bool
  /-- FCODE, bits 15:8: the fault code of the last command, 0x00 after a successful one. -/
  fcode : BitVec 8
  deriving DecidableEq, Repr

/-- The register file of 10_state.md R24, one field for each register that stores a value, at its width. CMD holds
no value (R27), HDR_PACKTYPE is hardwired (R38) and the indices 0x1F to 0x3F hold no register (R26). -/
structure Regs where
  status : Status
  resultLen : Word
  lastCmd : Word
  srcAddr : Word
  srcLen : Word
  dstAddr : Word
  dstCap : Word
  imgW : Half
  imgH : Half
  imgBpp : Half
  planeA : Word
  planeR : Word
  planeG : Word
  planeB : Word
  blkA : Word
  blkR : Word
  blkG : Word
  blkB : Word
  hdrScrW : Half
  hdrScrH : Half
  hdrBpp : Half
  hdrLeft : Half
  hdrRight : Half
  hdrTop : Half
  hdrBottom : Half
  hdrALen : Word
  hdrRLen : Word
  hdrGLen : Word
  hdrBLen : Word
  deriving DecidableEq, Repr

/-- The data memory (20_memory.md R70): address and byte pairs, addresses strictly rising and below MEM_SIZE, no entry
equal to `Config.unlistedByte`, which every unlisted address reads as (`Memory.wf` in Machine/Ops.lean). -/
abbrev Memory := List Host.Cell

/-- One step of the host (R20, R78: steps take effect one at a time, in the order the host issues them). -/
inductive HostEvent where
  /-- One register access, in format HOST39 (30_encoding.md R91). -/
  | transaction (t : Transaction)
  /-- The host writes a byte of the data memory it owns, between transactions (R20, R44, R78). -/
  | memWrite (addr : Word) (byte : Byte)
  /-- The reset input is asserted, between transactions (70_reset_and_hazards.md R240). -/
  | reset
  deriving DecidableEq, Repr

/-- The machine: the block's (regs, mem) of R20, and the host's side of the interface. -/
structure State where
  regs : Regs
  mem : Memory
  /-- What the host has still to do, oldest first (R78 (c)); the model's own field, log entry 1. -/
  pending : List HostEvent
  /-- What REG_READ has returned on the host's read-data path (R91, R111), oldest first; the model's own field,
  log entry 2. -/
  returned : List Word
  deriving DecidableEq, Repr

/-- What stops the machine: nothing. Every fault of the block ends its command and the CMD write then completes
normally (60_exceptions.md R221), so it is a next state with STATUS written; a host transaction never faults (R110,
R111). Log entry 8. -/
inductive Fault where
  deriving DecidableEq, Repr

/-- What the machine refuses. -/
inductive Refusal where
  /-- Raised by exec for an instruction without a meaning, by its mnemonic; safe. No arm of exec raises it. -/
  | notModelled (mnemonic : String)
  deriving DecidableEq, Repr

/-- STATUS after reset, 0x00000000 (R28, R240). -/
def Status.reset : Status := ⟨false, false, 0x00#8⟩

/-- Every register at the reset column of R24 (70_reset_and_hazards.md R240). -/
def Regs.reset : Regs where
  status := Status.reset
  resultLen := 0
  lastCmd := 0
  srcAddr := 0
  srcLen := 0
  dstAddr := 0
  dstCap := 0
  imgW := 0
  imgH := 0
  imgBpp := 0
  planeA := 0
  planeR := 0
  planeG := 0
  planeB := 0
  blkA := 0
  blkR := 0
  blkG := 0
  blkB := 0
  hdrScrW := 0
  hdrScrH := 0
  hdrBpp := 0
  hdrLeft := 0
  hdrRight := 0
  hdrTop := 0
  hdrBottom := 0
  hdrALen := 0
  hdrRLen := 0
  hdrGLen := 0
  hdrBLen := 0

/-- The machine right after reset: the registers as R240 says, the block idle and waiting for the host (R242), and a
memory with nothing listed (log entry 4: memory contents are an input of the model, R241). -/
def State.reset : State where
  regs := Regs.reset
  mem := []
  pending := []
  returned := []

end Sys2Proof.Machine
end

