-- ==== Sys2Proof/Machine/Flags.lean ====
section
/-!
DEFINITION. The fault codes (60_exceptions.md R210), and the block's only flags, STATUS.FAULT, STICKY and FCODE
(10_state.md R28, R29, R43): how each is computed. No command reads a flag (R43).
-/

namespace Sys2Proof.Machine

/-- The faults of R210. -/
inductive BlockFault where
  /-- A depth is neither 24 nor 32 (R212). -/
  | unsupportedPixelFormat
  /-- HDR_READ found a pack type other than 0x0101 (R213). -/
  | unsupportedPackType
  /-- HDR_READ's source is shorter than its header says (R214). -/
  | truncatedFile
  /-- RLE_DEC's stream has a run whose value bytes lie past its end (R215). -/
  | malformedStream
  /-- The command word has RSV ≠ 0 or an OP outside 0x01 to 0x08 (R211). -/
  | illegalCommand
  /-- A range the command uses is not in range (R216). -/
  | addressRange
  /-- A destination range overlaps a source range or another destination range (R217). -/
  | bufferOverlap
  /-- The output is longer than DST_CAP (R218). -/
  | outputOverflow
  /-- HDR_READ found bpp = 24 with aLen ≠ 0 (R219). -/
  | headerInvariant
  deriving DecidableEq, Repr

/-- `code(F)`: the FCODE of a fault (R210). -/
def BlockFault.code : BlockFault → BitVec 8
  | .unsupportedPixelFormat => 0x01
  | .unsupportedPackType => 0x02
  | .truncatedFile => 0x03
  | .malformedStream => 0x04
  | .illegalCommand => 0x10
  | .addressRange => 0x11
  | .bufferOverlap => 0x12
  | .outputOverflow => 0x13
  | .headerInvariant => 0x14

/-- The flags after a fault: FAULT <- 1, STICKY <- 1, FCODE <- the fault code (R43, R221). -/
def faultStatus (f : BlockFault) : Status := ⟨true, true, f.code⟩

/-- The flags after a successful command: FAULT <- 0, FCODE <- 0, STICKY unchanged (R43, 40_host_interface.md R114). -/
def okStatus (st : Status) : Status := ⟨false, st.sticky, 0x00⟩

/-- A host's write of v to STATUS: if v[1] = 1 then STICKY <- 0; no other field changes (R29). -/
def clearSticky (st : Status) (v : Word) : Status :=
  if v.getLsbD 1 then { st with sticky := false } else st

/-- The STATUS word a host reads (R28, 40_host_interface.md R111): FCODE at 15:8, STICKY at bit 1, FAULT at bit 0. -/
def statusWord (st : Status) : Word :=
  st.fcode.setWidth 32 <<< 8 ||| (BitVec.ofBool st.sticky).setWidth 32 <<< 1 ||| (BitVec.ofBool st.fault).setWidth 32

/-- The FCODE values a command writes (R210: "Every other FCODE value is never written"). -/
def legalFcode (c : BitVec 8) : Bool :=
  [0x00#8, 0x01#8, 0x02#8, 0x03#8, 0x04#8, 0x10#8, 0x11#8, 0x12#8, 0x13#8, 0x14#8].contains c

end Sys2Proof.Machine
end

