-- ==== Sys2Proof/Machine/Ops.lean ====
section
/-!
DEFINITION. The named operations: reading and writing registers (10_state.md R24 to R26), reading and writing the
data memory (00_scope.md R9, R10; 20_memory.md R70 to R75), and the frame every command runs in: its successful end (40_host_interface.md R114) and the fault entry (R115; 60_exceptions.md R221).

There is no return from a fault to model: "There is no return-from-fault instruction" (R222).
-/

namespace Sys2Proof.Machine

/-! ## Data memory -/

/-- The byte at an address: the one listed, or what an unlisted address reads as. -/
def readByte : Memory → Nat → Byte
  | [], _ => Config.unlistedByte
  | (k, v) :: m, a => if k = a then v else readByte m a

/-- The memory with one byte written, in canonical form: a byte equal to what an unlisted address reads as is not
listed. -/
def writeByte : Memory → Nat → Byte → Memory
  | [], a, b => if b = Config.unlistedByte then [] else [(a, b)]
  | (k, v) :: m, a, b =>
    if a < k then
      if b = Config.unlistedByte then (k, v) :: m else (a, b) :: (k, v) :: m
    else if a = k then
      if b = Config.unlistedByte then m else (a, b) :: m
    else (k, v) :: writeByte m a b

/-- The canonical form from an address on: rising addresses below MEM_SIZE, no byte that need not be listed. -/
def wfFrom (lo : Nat) : Memory → Bool
  | [] => true
  | (k, v) :: m =>
    decide (lo ≤ k) && decide (k < Config.memSize) && decide (v ≠ Config.unlistedByte) && wfFrom (k + 1) m

/-- The canonical form of a memory. -/
def Memory.wf (m : Memory) : Bool := wfFrom 0 m

/-- `MemRead(addr, n)` (R10): the bytes at addr, …, addr + n − 1. -/
def memRead (m : Memory) (a : Nat) : Nat → List Byte
  | 0 => []
  | n + 1 => readByte m a :: memRead m (a + 1) n

/-- `MemWrite(addr, n, v)` (R10): the bytes of v at addr, …, addr + n − 1, v[0] at addr. -/
def memWrite (m : Memory) (a : Nat) : List Byte → Memory
  | [] => m
  | b :: bs => memWrite (writeByte m a b) (a + 1) bs

/-- `LE16(v)` (R9): the low byte first. -/
def le16 (v : Half) : List Byte := [v.extractLsb' 0 8, v.extractLsb' 8 8]

/-- `LE32(v)` (R9): the low byte first. -/
def le32 (v : Word) : List Byte :=
  [v.extractLsb' 0 8, v.extractLsb' 8 8, v.extractLsb' 16 8, v.extractLsb' 24 8]

/-- `U16(s, k)` of the bytes s that stand in memory from address a − k on (R9, 20_memory.md R71, R72): two bytes,
little-endian. -/
def load16 (m : Memory) (a : Nat) : Half := readByte m (a + 1) ++ readByte m a

/-- `U32(s, k)` of the bytes s that stand in memory from address a − k on (R9, R71, R72): four bytes, little-endian. -/
def load32 (m : Memory) (a : Nat) : Word :=
  readByte m (a + 3) ++ readByte m (a + 2) ++ (readByte m (a + 1) ++ readByte m a)

/-! ## Registers -/

/-- The named registers of 10_state.md R24. -/
inductive Reg where
  | cmd | status | resultLen | lastCmd
  | srcAddr | srcLen | dstAddr | dstCap
  | imgW | imgH | imgBpp
  | planeA | planeR | planeG | planeB
  | blkA | blkR | blkG | blkB
  | hdrPackType | hdrScrW | hdrScrH | hdrBpp
  | hdrLeft | hdrRight | hdrTop | hdrBottom
  | hdrALen | hdrRLen | hdrGLen | hdrBLen
  deriving DecidableEq, Repr

/-- The register map of R24: the register at an index, none at the reserved indices 0x1F to 0x3F (R26). -/
def regAt (i : RegIdx) : Option Reg :=
  match i.toNat with
  | 0x00 => some .cmd
  | 0x01 => some .status
  | 0x02 => some .resultLen
  | 0x03 => some .lastCmd
  | 0x04 => some .srcAddr
  | 0x05 => some .srcLen
  | 0x06 => some .dstAddr
  | 0x07 => some .dstCap
  | 0x08 => some .imgW
  | 0x09 => some .imgH
  | 0x0A => some .imgBpp
  | 0x0B => some .planeA
  | 0x0C => some .planeR
  | 0x0D => some .planeG
  | 0x0E => some .planeB
  | 0x0F => some .blkA
  | 0x10 => some .blkR
  | 0x11 => some .blkG
  | 0x12 => some .blkB
  | 0x13 => some .hdrPackType
  | 0x14 => some .hdrScrW
  | 0x15 => some .hdrScrH
  | 0x16 => some .hdrBpp
  | 0x17 => some .hdrLeft
  | 0x18 => some .hdrRight
  | 0x19 => some .hdrTop
  | 0x1A => some .hdrBottom
  | 0x1B => some .hdrALen
  | 0x1C => some .hdrRLen
  | 0x1D => some .hdrGLen
  | 0x1E => some .hdrBLen
  | _ => none

/-- The index of a register (R24, column "index"); the other way round from `regAt`. -/
def Reg.index : Reg → RegIdx
  | .cmd => 0x00#6
  | .status => 0x01#6
  | .resultLen => 0x02#6
  | .lastCmd => 0x03#6
  | .srcAddr => 0x04#6
  | .srcLen => 0x05#6
  | .dstAddr => 0x06#6
  | .dstCap => 0x07#6
  | .imgW => 0x08#6
  | .imgH => 0x09#6
  | .imgBpp => 0x0A#6
  | .planeA => 0x0B#6
  | .planeR => 0x0C#6
  | .planeG => 0x0D#6
  | .planeB => 0x0E#6
  | .blkA => 0x0F#6
  | .blkR => 0x10#6
  | .blkG => 0x11#6
  | .blkB => 0x12#6
  | .hdrPackType => 0x13#6
  | .hdrScrW => 0x14#6
  | .hdrScrH => 0x15#6
  | .hdrBpp => 0x16#6
  | .hdrLeft => 0x17#6
  | .hdrRight => 0x18#6
  | .hdrTop => 0x19#6
  | .hdrBottom => 0x1A#6
  | .hdrALen => 0x1B#6
  | .hdrRLen => 0x1C#6
  | .hdrGLen => 0x1D#6
  | .hdrBLen => 0x1E#6

/-- The value of a register, as 40_host_interface.md R111 returns it: 16-bit registers zero-extended (R25), CMD 0
(R27), HDR_PACKTYPE hardwired (R38). -/
def getReg (r : Regs) : Reg → Word
  | .cmd => 0
  | .status => statusWord r.status
  | .resultLen => r.resultLen
  | .lastCmd => r.lastCmd
  | .srcAddr => r.srcAddr
  | .srcLen => r.srcLen
  | .dstAddr => r.dstAddr
  | .dstCap => r.dstCap
  | .imgW => r.imgW.setWidth 32
  | .imgH => r.imgH.setWidth 32
  | .imgBpp => r.imgBpp.setWidth 32
  | .planeA => r.planeA
  | .planeR => r.planeR
  | .planeG => r.planeG
  | .planeB => r.planeB
  | .blkA => r.blkA
  | .blkR => r.blkR
  | .blkG => r.blkG
  | .blkB => r.blkB
  | .hdrPackType => Config.packType.setWidth 32
  | .hdrScrW => r.hdrScrW.setWidth 32
  | .hdrScrH => r.hdrScrH.setWidth 32
  | .hdrBpp => r.hdrBpp.setWidth 32
  | .hdrLeft => r.hdrLeft.setWidth 32
  | .hdrRight => r.hdrRight.setWidth 32
  | .hdrTop => r.hdrTop.setWidth 32
  | .hdrBottom => r.hdrBottom.setWidth 32
  | .hdrALen => r.hdrALen
  | .hdrRLen => r.hdrRLen
  | .hdrGLen => r.hdrGLen
  | .hdrBLen => r.hdrBLen

/-- `reg[NAME] <- v` (R10): a 16-bit register keeps bits 15:0 (R25). CMD and HDR_PACKTYPE store nothing (R27, R38);
STATUS is written only field by field (Machine/Flags.lean). -/
def setReg (r : Regs) (n : Reg) (v : Word) : Regs :=
  match n with
  | .cmd | .status | .hdrPackType => r
  | .resultLen => { r with resultLen := v }
  | .lastCmd => { r with lastCmd := v }
  | .srcAddr => { r with srcAddr := v }
  | .srcLen => { r with srcLen := v }
  | .dstAddr => { r with dstAddr := v }
  | .dstCap => { r with dstCap := v }
  | .imgW => { r with imgW := v.setWidth 16 }
  | .imgH => { r with imgH := v.setWidth 16 }
  | .imgBpp => { r with imgBpp := v.setWidth 16 }
  | .planeA => { r with planeA := v }
  | .planeR => { r with planeR := v }
  | .planeG => { r with planeG := v }
  | .planeB => { r with planeB := v }
  | .blkA => { r with blkA := v }
  | .blkR => { r with blkR := v }
  | .blkG => { r with blkG := v }
  | .blkB => { r with blkB := v }
  | .hdrScrW => { r with hdrScrW := v.setWidth 16 }
  | .hdrScrH => { r with hdrScrH := v.setWidth 16 }
  | .hdrBpp => { r with hdrBpp := v.setWidth 16 }
  | .hdrLeft => { r with hdrLeft := v.setWidth 16 }
  | .hdrRight => { r with hdrRight := v.setWidth 16 }
  | .hdrTop => { r with hdrTop := v.setWidth 16 }
  | .hdrBottom => { r with hdrBottom := v.setWidth 16 }
  | .hdrALen => { r with hdrALen := v }
  | .hdrRLen => { r with hdrRLen := v }
  | .hdrGLen => { r with hdrGLen := v }
  | .hdrBLen => { r with hdrBLen := v }

/-- The value a host reads at an index (R111); a reserved index reads 0 (R26). -/
def readIndex (r : Regs) (i : RegIdx) : Word :=
  match regAt i with
  | some n => getReg r n
  | none => 0

/-- The host's access to a register (R24, column "Host"). -/
inductive Access where
  /-- RW: read-write. -/
  | readWrite
  /-- RO: host writes ignored. -/
  | readOnly
  /-- WO: CMD, a write starts a command (R27). -/
  | command
  /-- RO but for bit 1, W1C: STATUS (R29). -/
  | statusClear
  deriving DecidableEq, Repr

/-- Column "Host" of R24. -/
def hostAccess : Reg → Access
  | .cmd => .command
  | .status => .statusClear
  | .resultLen | .lastCmd | .hdrPackType | .hdrBpp => .readOnly
  | .srcAddr | .srcLen | .dstAddr | .dstCap | .imgW | .imgH | .imgBpp | .planeA | .planeR | .planeG | .planeB
  | .blkA | .blkR | .blkG | .blkB | .hdrScrW | .hdrScrH | .hdrLeft | .hdrRight | .hdrTop | .hdrBottom
  | .hdrALen | .hdrRLen | .hdrGLen | .hdrBLen => .readWrite

/-- Column "Width" of R24: the number of low bits a register stores. -/
def regWidth : Reg → Nat
  | .imgW | .imgH | .imgBpp | .hdrPackType | .hdrScrW | .hdrScrH | .hdrBpp | .hdrLeft | .hdrRight | .hdrTop
  | .hdrBottom => 16
  | .cmd | .status | .resultLen | .lastCmd | .srcAddr | .srcLen | .dstAddr | .dstCap | .planeA | .planeR | .planeG
  | .planeB | .blkA | .blkR | .blkG | .blkB | .hdrALen | .hdrRLen | .hdrGLen | .hdrBLen => 32

/-! ## The frame every command runs in -/

/-- A commit set (40_host_interface.md R112): "a list of memory writes, a list of register writes and the RESULT_LEN
value". -/
structure Commit where
  stores : List (Nat × List Byte)
  regWrites : List (Reg × Word)
  result : Nat
  deriving DecidableEq, Repr

/-- What a command body computes from the registers and the memory as they stand when the CMD write arrives (R112,
R116): a fault or a commit set. -/
abbrev Body := Regs → Memory → Except BlockFault Commit

/-- Every memory write of a commit set, in its order. -/
def applyStores (m : Memory) (ws : List (Nat × List Byte)) : Memory :=
  ws.foldl (fun m w => memWrite m w.1 w.2) m

/-- Every register write of a commit set, in its order. -/
def applyRegWrites (r : Regs) (ws : List (Reg × Word)) : Regs :=
  ws.foldl (fun r w => setReg r w.1 w.2) r

/-- `raise F`, the fault entry (60_exceptions.md R221, 40_host_interface.md R115): FAULT <- 1, FCODE <- code(F),
STICKY <- 1; nothing else changes. -/
def raise (f : BlockFault) (s : State) : State :=
  { s with regs := { s.regs with status := faultStatus f } }

/-- The successful end (40_host_interface.md R114): every memory write, every register write, RESULT_LEN, FAULT <- 0,
FCODE <- 0; STICKY is unchanged. -/
def commit (c : Commit) (s : State) : State :=
  { s with
    mem := applyStores s.mem c.stores
    regs := { applyRegWrites s.regs c.regWrites with
      resultLen := BitVec.ofNat 32 c.result
      status := okStatus s.regs.status } }

/-- LAST_CMD <- w, the first effect of every write to CMD (40_host_interface.md R112, 10_state.md R31). -/
def recordCommand (w : Word) (s : State) : State :=
  { s with regs := { s.regs with lastCmd := w } }

/-- One command of word w (40_host_interface.md R112): LAST_CMD, then the body, read against the state in which the
CMD write arrives, then its successful or its faulting end. -/
def runCommand (w : Word) (body : Body) (s : State) : State :=
  match body s.regs s.mem with
  | .ok c => commit c (recordCommand w s)
  | .error f => raise f (recordCommand w s)

/-! ## The host's own steps -/

/-- The host writes a byte of the memory it owns (R20, R44; log entry 6). -/
def hostMemWrite (a : Word) (b : Byte) (s : State) : State :=
  { s with mem := writeByte s.mem a.toNat b }

/-- The reset input (70_reset_and_hazards.md R240, R241): every register at its reset value, the memory unchanged.
What the host still has to do, and what it has read, are the host's and stay (log entry 5). -/
def resetBlock (s : State) : State := { s with regs := Regs.reset }

/-- The oldest event the host has not yet done, and the state without it (R78 (c)); none when the block is idle. -/
def takeEvent (s : State) : Option (HostEvent × State) :=
  match s.pending with
  | [] => none
  | e :: rest => some (e, { s with pending := rest })

end Sys2Proof.Machine
end

