-- ==== Sys2Proof/Machine/Operands.lean ====
section
/-!
DEFINITION. Operands: buffer ranges (00_scope.md R12), the range and overlap checks every command shares (20_memory.md
R73, R77; 40_host_interface.md R113), channels and the registers each channel names (00_scope.md R11, 10_state.md R32,
R33, R36, R37), and the addresses of an interleaved buffer and of a plane (42_planar.md R160, R161; R118).
-/

namespace Sys2Proof.Machine

/-! ## Ranges -/

/-- The buffer range [base, base + len) (R12); the sum is not wrapped (R8). -/
structure Range where
  base : Nat
  len : Nat
  deriving DecidableEq, Repr

/-- In range iff base + len ≤ MEM_SIZE, without wrap-around (R73). -/
def Range.inRange (x : Range) : Bool := decide (x.base + x.len ≤ Config.memSize)

/-- Two ranges overlap iff neither is empty and each begins before the other ends (R12). -/
def Range.overlaps (x y : Range) : Bool :=
  decide (0 < x.len) && decide (0 < y.len) && decide (x.base < y.base + y.len) && decide (y.base < x.base + x.len)

/-- An address lies in a range. -/
def Range.mem (x : Range) (a : Nat) : Prop := x.base ≤ a ∧ a < x.base + x.len

/-- Some two ranges of a list overlap. -/
def pairOverlap : List Range → Bool
  | [] => false
  | x :: xs => xs.any x.overlaps || pairOverlap xs

/-- Some destination overlaps a source, or two destinations overlap (R77). Sources may overlap each other. -/
def anyOverlap (srcs dsts : List Range) : Bool :=
  dsts.any (fun d => srcs.any d.overlaps) || pairOverlap dsts

/-- Classes (2) and (3) of R113 for a command's ranges: AddressRange before BufferOverlap, none where all is well. -/
def checkRanges (srcs dsts : List Range) : Option BlockFault :=
  if (srcs ++ dsts).all Range.inRange then
    if anyOverlap srcs dsts then some .bufferOverlap else none
  else some .addressRange

/-- The source range [SRC_ADDR, SRC_ADDR + SRC_LEN) (10_state.md R32). -/
def srcRange (r : Regs) : Range := ⟨r.srcAddr.toNat, r.srcLen.toNat⟩

/-- The destination range [DST_ADDR, DST_ADDR + DST_CAP), at its full extent (10_state.md R33, R77). -/
def dstRange (r : Regs) : Range := ⟨r.dstAddr.toNat, r.dstCap.toNat⟩

/-! ## Channels -/

/-- A channel (R11). -/
inductive Channel where
  | a | r | g | b
  deriving DecidableEq, Repr

/-- `ch(bpp)` (R11, 42_planar.md R162): the channels of a depth, in the order A, R, G, B; none for a depth that is
neither 24 nor 32, which is UnsupportedPixelFormat (60_exceptions.md R212). -/
def channels (bpp : Half) : Option (List Channel) :=
  if bpp = 32#16 then some [.a, .r, .g, .b]
  else if bpp = 24#16 then some [.r, .g, .b]
  else none

/-- `off(c)`: the byte offset of a channel in a pixel (R11, 42_planar.md R160). -/
def Channel.off : Channel → Nat
  | .a => 0
  | .r => 1
  | .g => 2
  | .b => 3

/-- The channel at a byte offset of a pixel; the other way round from `off`. -/
def Channel.atOff (o : Nat) : Channel :=
  match o with
  | 0 => .a
  | 1 => .r
  | 2 => .g
  | _ => .b

/-- `PLANE[c]` (10_state.md R36). -/
def planeReg (r : Regs) : Channel → Word
  | .a => r.planeA
  | .r => r.planeR
  | .g => r.planeG
  | .b => r.planeB

/-- `BLK[c]` (10_state.md R37). -/
def blkReg (r : Regs) : Channel → Word
  | .a => r.blkA
  | .r => r.blkR
  | .g => r.blkG
  | .b => r.blkB

/-- `LEN[c]` (10_state.md R37). -/
def lenReg (r : Regs) : Channel → Word
  | .a => r.hdrALen
  | .r => r.hdrRLen
  | .g => r.hdrGLen
  | .b => r.hdrBLen

/-! ## Image extents and addresses -/

/-- W·H of IMG_W and IMG_H (10_state.md R34), the bytes of a plane. -/
def imgPixels (r : Regs) : Nat := r.imgW.toNat * r.imgH.toNat

/-- The range of the interleaved source image: 4·W·H bytes at SRC_ADDR (42_planar.md R163; SRC_LEN is not read). -/
def imageSrcRange (r : Regs) : Range := ⟨r.srcAddr.toNat, Config.pixelStride * imgPixels r⟩

/-- The range of a plane: W·H bytes at PLANE[c] (10_state.md R36). -/
def planeRange (r : Regs) (c : Channel) : Range := ⟨(planeReg r c).toNat, imgPixels r⟩

/-- The range of a compressed block: LEN[c] bytes at BLK[c] (10_state.md R37). -/
def blkRange (r : Regs) (c : Channel) : Range := ⟨(blkReg r c).toNat, (lenReg r c).toNat⟩

/-- Byte o of pixel (x, y) in an interleaved buffer of width w, from its base (42_planar.md R160, R118). -/
def pixelOffset (w x y o : Nat) : Nat := Config.pixelStride * (y * w + x) + o

/-- The element of a plane that belongs to pixel (x, y): rows from bottom to top (42_planar.md R161). -/
def planeIndex (w h x y : Nat) : Nat := (h - 1 - y) * w + x

end Sys2Proof.Machine
end

