-- ==== Sys2Proof/Machine/ChannelRle.lean ====
section
/-!
DEFINITION. ChannelRLE: the stream format, the functions Encode and Decode, and the commands RLE_ENC and RLE_DEC (41_rle.md).

A stream is a concatenation of runs (R130), so both functions go through the list of runs: Encode scans its input
into runs (R131) and writes each; Decode reads runs until the input is exhausted (R135) and gives what they mean.
-/

namespace Sys2Proof.Machine

/-! ## Runs (R130) -/

/-- The document's CompressedRun. -/
inductive Run where
  /-- A repeat run: `count` copies of one value byte. -/
  | rep (count : Nat) (value : Byte)
  /-- A literal run: the value bytes verbatim; its count is their number. -/
  | lit (bytes : List Byte)
  deriving DecidableEq, Repr

/-- A run in the stream: the count byte, 0x80 | count or count, then its value bytes (R130). -/
def Run.bytes : Run → List Byte
  | .rep c v => [0x80#8 ||| BitVec.ofNat 8 c, v]
  | .lit bs => BitVec.ofNat 8 bs.length :: bs

/-- What a run means (R130). -/
def Run.expand : Run → List Byte
  | .rep c v => List.replicate c v
  | .lit bs => bs

/-- The count of a run. -/
def Run.count : Run → Nat
  | .rep c _ => c
  | .lit bs => bs.length

/-! ## Encode (R131 to R133) -/

/-- How many of the next elements extend a repeat run of value v, at most `cap`: each is compared with the run's fixed
value (R132). -/
def repeatExtent (v : Byte) : Nat → List Byte → Nat
  | 0, _ => 0
  | _ + 1, [] => 0
  | cap + 1, b :: bs => if b = v then repeatExtent v cap bs + 1 else 0

/-- How many of the next elements extend a literal run whose last element is `prev`, at most `cap`: each is compared
with the element just before it in the scan (R133). -/
def literalExtent (prev : Byte) : Nat → List Byte → Nat
  | 0, _ => 0
  | _ + 1, [] => 0
  | cap + 1, b :: bs => if b ≠ prev then literalExtent b cap bs + 1 else 0

/-- The scan of R131. The first argument bounds the number of runs; the length of the input is enough, since every
run takes at least one element. -/
def scanRuns : Nat → List Byte → List Run
  | 0, _ => []
  | _ + 1, [] => []
  | fuel + 1, v :: rest =>
    if rest.head? = some v then
      .rep (repeatExtent v (Config.maxRun - 1) rest + 1) v ::
        scanRuns fuel (rest.drop (repeatExtent v (Config.maxRun - 1) rest))
    else
      .lit (v :: rest.take (literalExtent v (Config.maxRun - 1) rest)) ::
        scanRuns fuel (rest.drop (literalExtent v (Config.maxRun - 1) rest))

/-- The runs Encode emits for s, in order (R131). -/
def encodeRuns (s : List Byte) : List Run := scanRuns s.length s

/-- `Encode(s)` (R131). -/
def rleEncode (s : List Byte) : List Byte := (encodeRuns s).flatMap Run.bytes

/-! ## Decode (R135 to R137) -/

/-- Reading runs from the start of a stream until it is exhausted (R135); none is MalformedStream, a run whose value
bytes would lie past the end (R136). Zero counts are runs of no bytes (R137). The first argument bounds the number of
runs; the length of the stream is enough, since every run takes at least its count byte. -/
def readRuns : Nat → List Byte → Option (List Run)
  | _, [] => some []
  | 0, _ :: _ => none
  | fuel + 1, h :: rest =>
    if h.getLsbD 7 then
      match rest with
      | [] => none
      | v :: rest' => (readRuns fuel rest').map (.rep (h.extractLsb' 0 7).toNat v :: ·)
    else if rest.length < h.toNat then none
    else (readRuns fuel (rest.drop h.toNat)).map (.lit (rest.take h.toNat) :: ·)

/-- The runs of a stream, none where it is malformed. -/
def decodeRuns (b : List Byte) : Option (List Run) := readRuns b.length b

/-- `Decode(b)` (R135): the bytes, none for MalformedStream. -/
def rleDecode (b : List Byte) : Option (List Byte) := (decodeRuns b).map (·.flatMap Run.expand)

/-! ## The commands -/

/-- The body of RLE_ENC (R138). -/
def rleEncBody : Body := fun r m =>
  match checkRanges [srcRange r] [dstRange r] with
  | some f => .error f
  | none =>
    let out := rleEncode (memRead m r.srcAddr.toNat r.srcLen.toNat)
    if r.dstCap.toNat < out.length then .error .outputOverflow
    else .ok { stores := [(r.dstAddr.toNat, out)], regWrites := [], result := out.length }

/-- The body of RLE_DEC (R139). -/
def rleDecBody : Body := fun r m =>
  match checkRanges [srcRange r] [dstRange r] with
  | some f => .error f
  | none =>
    match rleDecode (memRead m r.srcAddr.toNat r.srcLen.toNat) with
    | none => .error .malformedStream
    | some out =>
      if r.dstCap.toNat < out.length then .error .outputOverflow
      else .ok { stores := [(r.dstAddr.toNat, out)], regWrites := [], result := out.length }

/-- RLE_ENC (R138): command word 0x00000001. -/
def execRleEnc (s : State) : Host.Outcome State Fault Refusal := .next (runCommand 0x00000001#32 rleEncBody s)

/-- RLE_DEC (R139): command word 0x00000002. -/
def execRleDec (s : State) : Host.Outcome State Fault Refusal := .next (runCommand 0x00000002#32 rleDecBody s)

end Sys2Proof.Machine
end

