-- ==== Sys2Proof/Machine/GrdContainer.lean ====
section
/-!
DEFINITION. GrdContainer: the header serializer, and the commands HDR_WRITE, HDR_READ, GRD_PACK and GEOM_DEFAULT
(43_container.md).
-/

namespace Sys2Proof.Machine

/-- The aLen field as the serializers write it: 0 unless HDR_BPP = 32, whatever HDR_ALEN holds (R181). -/
def aLenOut (r : Regs) : Word := if r.hdrBpp = 32#16 then r.hdrALen else 0#32

/-- `HdrBytes()`, the 32-byte header (R181, layout R180). -/
def hdrBytes (r : Regs) : List Byte :=
  le16 Config.packType ++ le16 r.hdrScrW ++ le16 r.hdrScrH ++ le16 r.hdrBpp ++
  le16 r.hdrLeft ++ le16 r.hdrRight ++ le16 r.hdrTop ++ le16 r.hdrBottom ++
  le32 (aLenOut r) ++ le32 r.hdrRLen ++ le32 r.hdrGLen ++ le32 r.hdrBLen

/-- The length of the container GRD_PACK writes: 32 and the lengths of the blocks of the depth (R183). -/
def packTotal (r : Regs) (cs : List Channel) : Nat :=
  Config.hdrSize + (cs.map fun c => (lenReg r c).toNat).sum

/-- The container: the header, then the blocks of the depth in the order A, R, G, B (R183). -/
def packBytes (r : Regs) (m : Memory) (cs : List Channel) : List Byte :=
  hdrBytes r ++ cs.flatMap fun c => memRead m (blkReg r c).toNat (lenReg r c).toNat

/-- The body of HDR_WRITE (R182). -/
def hdrWriteBody : Body := fun r _ =>
  match channels r.hdrBpp with
  | none => .error .unsupportedPixelFormat
  | some _ =>
    match checkRanges [] [dstRange r] with
    | some f => .error f
    | none =>
      if r.dstCap.toNat < Config.hdrSize then .error .outputOverflow
      else .ok { stores := [(r.dstAddr.toNat, hdrBytes r)], regWrites := [], result := Config.hdrSize }

/-- The body of GRD_PACK (R183). -/
def grdPackBody : Body := fun r m =>
  match channels r.hdrBpp with
  | none => .error .unsupportedPixelFormat
  | some cs =>
    match checkRanges (cs.map (blkRange r)) [dstRange r] with
    | some f => .error f
    | none =>
      if r.dstCap.toNat < packTotal r cs then .error .outputOverflow
      else .ok {
        stores := [(r.dstAddr.toNat, packBytes r m cs)]
        regWrites := []
        result := packTotal r cs }

/-- 32 + aLen + rLen + gLen + bLen of the header that stands at an address, not wrapped (R184). -/
def headerTotal (m : Memory) (a : Nat) : Nat :=
  Config.hdrSize + (load32 m (a + 16)).toNat + (load32 m (a + 20)).toNat + (load32 m (a + 24)).toNat +
    (load32 m (a + 28)).toNat

/-- The checks of HDR_READ, in their order of priority (R184); none where all pass. -/
def hdrReadCheck (r : Regs) (m : Memory) : Option BlockFault :=
  let a := r.srcAddr.toNat
  match checkRanges [srcRange r] [] with
  | some f => some f
  | none =>
    if r.srcLen.toNat < Config.hdrSize then some .truncatedFile
    else if load16 m a ≠ Config.packType then some .unsupportedPackType
    else if channels (load16 m (a + 6)) = none then some .unsupportedPixelFormat
    else if load16 m (a + 6) = 24#16 ∧ load32 m (a + 16) ≠ 0#32 then some .headerInvariant
    else if r.srcLen.toNat < headerTotal m a then some .truncatedFile
    else none

/-- The commit set of HDR_READ (R185): the header fields, and the address of each block modulo 2^32. -/
def hdrReadCommit (r : Regs) (m : Memory) : Commit :=
  let a := r.srcAddr.toNat
  let aL := load32 m (a + 16)
  let rL := load32 m (a + 20)
  let gL := load32 m (a + 24)
  let bL := load32 m (a + 28)
  { stores := []
    regWrites := [
      (.hdrScrW, (load16 m (a + 2)).setWidth 32), (.hdrScrH, (load16 m (a + 4)).setWidth 32),
      (.hdrBpp, (load16 m (a + 6)).setWidth 32),
      (.hdrLeft, (load16 m (a + 8)).setWidth 32), (.hdrRight, (load16 m (a + 10)).setWidth 32),
      (.hdrTop, (load16 m (a + 12)).setWidth 32), (.hdrBottom, (load16 m (a + 14)).setWidth 32),
      (.hdrALen, aL), (.hdrRLen, rL), (.hdrGLen, gL), (.hdrBLen, bL),
      (.blkA, BitVec.ofNat 32 (a + 32)),
      (.blkR, BitVec.ofNat 32 (a + 32 + aL.toNat)),
      (.blkG, BitVec.ofNat 32 (a + 32 + aL.toNat + rL.toNat)),
      (.blkB, BitVec.ofNat 32 (a + 32 + aL.toNat + rL.toNat + gL.toNat))]
    result := headerTotal m a }

/-- The body of HDR_READ (R184, R185). -/
def hdrReadBody : Body := fun r m =>
  match hdrReadCheck r m with
  | some f => .error f
  | none => .ok (hdrReadCommit r m)

/-- The body of GEOM_DEFAULT (R186): the document's default geometry; it cannot fault. -/
def geomDefaultBody : Body := fun r _ =>
  .ok {
    stores := []
    regWrites := [
      (.hdrLeft, 0#32), (.hdrTop, 0#32), (.hdrRight, r.imgW.setWidth 32), (.hdrBottom, r.imgH.setWidth 32),
      (.hdrScrW, 0#32), (.hdrScrH, 0#32)]
    result := 0 }

/-- HDR_WRITE (R182): command word 0x00000005. -/
def execHdrWrite (s : State) : Host.Outcome State Fault Refusal := .next (runCommand 0x00000005#32 hdrWriteBody s)

/-- HDR_READ (R184, R185): command word 0x00000006. -/
def execHdrRead (s : State) : Host.Outcome State Fault Refusal := .next (runCommand 0x00000006#32 hdrReadBody s)

/-- GRD_PACK (R183): command word 0x00000007. -/
def execGrdPack (s : State) : Host.Outcome State Fault Refusal := .next (runCommand 0x00000007#32 grdPackBody s)

/-- GEOM_DEFAULT (R186): command word 0x00000008. -/
def execGeomDefault (s : State) : Host.Outcome State Fault Refusal :=
  .next (runCommand 0x00000008#32 geomDefaultBody s)

end Sys2Proof.Machine
end

