-- ==== Sys2Proof/Machine/PixelPlanarizer.lean ====
section
/-!
DEFINITION. PixelPlanarizer: the commands PLANE_SPLIT and PLANE_MERGE (42_planar.md).

Bytes are taken straight from the memory as it was when the command started, which is what `MemRead` sees (00_scope.md R10).
-/

namespace Sys2Proof.Machine

/-- Element i of the plane of channel c: the byte of that channel of the pixel (x, y) with (H−1−y)·W + x = i, in the
interleaved image at `base` (R161, R163). -/
def splitByte (m : Memory) (base w h : Nat) (c : Channel) (i : Nat) : Byte :=
  readByte m (base + pixelOffset w (i % w) (h - 1 - i / w) c.off)

/-- The plane of channel c: its W·H elements (R161, R163). -/
def splitPlane (m : Memory) (base w h : Nat) (c : Channel) : List Byte :=
  (List.range (w * h)).map (splitByte m base w h c)

/-- Byte j of the merged image: byte j mod 4 of the pixel (x, y) with y·W + x = j / 4; the byte of a channel of the
depth comes from its plane, the byte at an offset without a channel is FILL24 (R160, R164). -/
def mergeByte (m : Memory) (plane : Channel → Nat) (cs : List Channel) (w h : Nat) (j : Nat) : Byte :=
  let c := Channel.atOff (j % Config.pixelStride)
  let p := j / Config.pixelStride
  if cs.contains c then readByte m (plane c + planeIndex w h (p % w) (p / w)) else Config.fill24

/-- The merged image: its 4·W·H bytes (R164). -/
def mergeImage (m : Memory) (plane : Channel → Nat) (cs : List Channel) (w h : Nat) : List Byte :=
  (List.range (Config.pixelStride * (w * h))).map (mergeByte m plane cs w h)

/-- The body of PLANE_SPLIT (R163); the depth is IMG_BPP, and HDR_BPP takes it. -/
def planeSplitBody : Body := fun r m =>
  match channels r.imgBpp with
  | none => .error .unsupportedPixelFormat
  | some cs =>
    match checkRanges [imageSrcRange r] (cs.map (planeRange r)) with
    | some f => .error f
    | none => .ok {
        stores := cs.map fun c =>
          ((planeReg r c).toNat, splitPlane m r.srcAddr.toNat r.imgW.toNat r.imgH.toNat c)
        regWrites := [(.hdrBpp, r.imgBpp.setWidth 32)]
        result := imgPixels r }

/-- The body of PLANE_MERGE (R164); the depth is HDR_BPP. -/
def planeMergeBody : Body := fun r m =>
  match channels r.hdrBpp with
  | none => .error .unsupportedPixelFormat
  | some cs =>
    match checkRanges (cs.map (planeRange r)) [dstRange r] with
    | some f => .error f
    | none =>
      if r.dstCap.toNat < Config.pixelStride * imgPixels r then .error .outputOverflow
      else .ok {
        stores := [(r.dstAddr.toNat, mergeImage m (fun c => (planeReg r c).toNat) cs r.imgW.toNat r.imgH.toNat)]
        regWrites := []
        result := Config.pixelStride * imgPixels r }

/-- PLANE_SPLIT (R163): command word 0x00000003. -/
def execPlaneSplit (s : State) : Host.Outcome State Fault Refusal := .next (runCommand 0x00000003#32 planeSplitBody s)

/-- PLANE_MERGE (R164): command word 0x00000004. -/
def execPlaneMerge (s : State) : Host.Outcome State Fault Refusal := .next (runCommand 0x00000004#32 planeMergeBody s)

end Sys2Proof.Machine
end

