-- ==== Sys2Proof/Machine/HostInterface.lean ====
section
/-!
DEFINITION. The host transactions REG_WRITE and REG_READ, and the dispatch of a command word (40_host_interface.md
R110 to R112).
-/

namespace Sys2Proof.Machine

/-- An illegal command word (R112, 60_exceptions.md R211): LAST_CMD takes it, then the fault entry. -/
def illegalCommand (w : Word) (s : State) : State := raise .illegalCommand (recordCommand w s)

/-- `execute(w)` (R112): the command the decoder reads from w, or IllegalCommand. A command word never decodes to a
host transaction (30_encoding.md R96), so the two arms for those say IllegalCommand too. -/
def execute (w : Word) (s : State) : Host.Outcome State Fault Refusal :=
  match decodeCommand w with
  | some .rleEnc => execRleEnc s
  | some .rleDec => execRleDec s
  | some .planeSplit => execPlaneSplit s
  | some .planeMerge => execPlaneMerge s
  | some .hdrWrite => execHdrWrite s
  | some .hdrRead => execHdrRead s
  | some .grdPack => execGrdPack s
  | some .geomDefault => execGeomDefault s
  | some (.regWrite _ _) => .next (illegalCommand w s)
  | some (.regRead _) => .next (illegalCommand w s)
  | none => .next (illegalCommand w s)

/-- REG_WRITE (R110): CMD runs the command, STATUS clears STICKY by bit 1, a read-only or reserved index does
nothing, any other register takes the value at its width. -/
def execRegWrite (i : RegIdx) (v : Word) (s : State) : Host.Outcome State Fault Refusal :=
  match regAt i with
  | none => .next s
  | some n =>
    match hostAccess n with
    | .command => execute v s
    | .statusClear => .next { s with regs := { s.regs with status := clearSticky s.regs.status v } }
    | .readOnly => .next s
    | .readWrite => .next { s with regs := setReg s.regs n v }

/-- REG_READ (R111): the value goes out on the host's read-data path; a read changes no register and no memory. -/
def execRegRead (i : RegIdx) (s : State) : Host.Outcome State Fault Refusal :=
  .next { s with returned := s.returned ++ [readIndex s.regs i] }

end Sys2Proof.Machine
end

