-- ==== Sys2Proof/Machine/Dispatch.lean ====
section
/-!
DEFINITION. exec: one arm for each instruction, each a direct call of its meaning.
-/

namespace Sys2Proof.Machine

def exec (i : Instr) (s : State) : Host.Outcome State Fault Refusal :=
  match i with
  | .rleEnc => Sys2Proof.Machine.execRleEnc s
  | .rleDec => Sys2Proof.Machine.execRleDec s
  | .planeSplit => Sys2Proof.Machine.execPlaneSplit s
  | .planeMerge => Sys2Proof.Machine.execPlaneMerge s
  | .hdrWrite => Sys2Proof.Machine.execHdrWrite s
  | .hdrRead => Sys2Proof.Machine.execHdrRead s
  | .grdPack => Sys2Proof.Machine.execGrdPack s
  | .geomDefault => Sys2Proof.Machine.execGeomDefault s
  | .regWrite idx data => Sys2Proof.Machine.execRegWrite idx data s
  | .regRead idx => Sys2Proof.Machine.execRegRead idx s

end Sys2Proof.Machine
end

