-- ==== Sys2Proof/Machine/Step.lean ====
section
/-!
DEFINITION. One step of the machine: the oldest event the host has still to do takes effect, whole (20_memory.md R78).

The block fetches nothing from memory and has no program counter (10_state.md R21): a command enters by the host's
write to CMD, and the order of commands is the order of those writes. With nothing pending the block is idle and
holds its registers (60_exceptions.md R228, 70_reset_and_hazards.md R242).
-/

namespace Sys2Proof.Machine

/-- One step: a transaction is decoded and run; a host memory write lands; the reset input resets the registers; with
nothing pending, nothing changes. -/
def step (s : State) : Host.Outcome State Fault Refusal :=
  match takeEvent s with
  | none => .next s
  | some (.transaction t, s') => exec (decodeTransaction t) s'
  | some (.memWrite a b, s') => .next (hostMemWrite a b s')
  | some (.reset, s') => .next (resetBlock s')

/-- s with an instruction, numbered as opcode_table.json numbers it, as the host's next transaction: a command word is
delivered by REG_WRITE to CMD, a host transaction is its own (30_encoding.md R90). Nothing else changes. -/
def State.withFetchWord (s : State) (nbits w : Nat) : State :=
  { s with pending := .transaction (deliver (tableWord nbits w)) :: s.pending }

end Sys2Proof.Machine
end

