-- ==== Sys2Proof/Machine/Assembler.lean ====
section
/-!
DEFINITION. Host programs: the pseudo-instructions and their expansions (30_encoding.md R98), and the text of a host
program (R97). A pseudo-instruction "is exactly its expansion, one transaction per write, with no atomicity across
its writes" (R98), so nothing here has a meaning of its own: a program is the list of its transactions.
-/

namespace Sys2Proof.Machine

/-! ## Pseudo-instructions (R98) -/

/-- The pseudo-instructions of R98, with the values they write. -/
inductive Pseudo where
  | src (a n : Word)
  | dst (a cap : Word)
  | geom (w h bpp : Word)
  | planes (a r g b : Word)
  | blocks (a r g b : Word)
  | lens (a r g b : Word)
  | enc (a n d cap : Word)
  | dec (a n d cap : Word)
  | clrsticky
  deriving DecidableEq, Repr

/-- The expansion of a pseudo-instruction, in order of the writes (R98, with the indices of 10_state.md R24). -/
def Pseudo.expand : Pseudo → List Instr
  | .src a n => [.regWrite 0x04 a, .regWrite 0x05 n]
  | .dst a cap => [.regWrite 0x06 a, .regWrite 0x07 cap]
  | .geom w h bpp => [.regWrite 0x08 w, .regWrite 0x09 h, .regWrite 0x0A bpp]
  | .planes a r g b => [.regWrite 0x0B a, .regWrite 0x0C r, .regWrite 0x0D g, .regWrite 0x0E b]
  | .blocks a r g b => [.regWrite 0x0F a, .regWrite 0x10 r, .regWrite 0x11 g, .regWrite 0x12 b]
  | .lens a r g b => [.regWrite 0x1B a, .regWrite 0x1C r, .regWrite 0x1D g, .regWrite 0x1E b]
  | .enc a n d cap =>
    [.regWrite 0x04 a, .regWrite 0x05 n, .regWrite 0x06 d, .regWrite 0x07 cap, .regWrite 0x00 0x00000001]
  | .dec a n d cap =>
    [.regWrite 0x04 a, .regWrite 0x05 n, .regWrite 0x06 d, .regWrite 0x07 cap, .regWrite 0x00 0x00000002]
  | .clrsticky => [.regWrite 0x01 0x00000002]

/-! ## The text of a host program (R97) -/

/-- The register names of 10_state.md R24, in order of their indices 0x00 to 0x1E. -/
def registerNames : List String :=
  ["CMD", "STATUS", "RESULT_LEN", "LAST_CMD", "SRC_ADDR", "SRC_LEN", "DST_ADDR", "DST_CAP", "IMG_W", "IMG_H", "IMG_BPP",
   "PLANE_A", "PLANE_R", "PLANE_G", "PLANE_B", "BLK_A", "BLK_R", "BLK_G", "BLK_B", "HDR_PACKTYPE", "HDR_SCRW",
   "HDR_SCRH", "HDR_BPP", "HDR_LEFT", "HDR_RIGHT", "HDR_TOP", "HDR_BOTTOM", "HDR_ALEN", "HDR_RLEN", "HDR_GLEN",
   "HDR_BLEN"]

/-- Column "assembler" of 30_encoding.md R94: the mnemonics of the command words 0x01 to 0x08, in order. -/
def commandNames : List String :=
  ["rle.enc", "rle.dec", "plane.split", "plane.merge", "hdr.write", "hdr.read", "grd.pack", "geom.default"]

/-- The value of a hexadecimal or decimal digit. -/
def digitVal (c : Char) : Option Nat :=
  if '0' ≤ c ∧ c ≤ '9' then some (c.toNat - '0'.toNat)
  else if 'a' ≤ c ∧ c ≤ 'f' then some (c.toNat - 'a'.toNat + 10)
  else if 'A' ≤ c ∧ c ≤ 'F' then some (c.toNat - 'A'.toNat + 10)
  else none

/-- The value of a sequence of digits in a base, from an accumulated value on. -/
def digitsVal (base : Nat) (acc : Nat) : List Char → Option Nat
  | [] => some acc
  | c :: cs =>
    match digitVal c with
    | some d => if d < base then digitsVal base (acc * base + d) cs else none
    | none => none

/-- A number, decimal or 0x hexadecimal (R97). -/
def parseNat (s : String) : Option Nat :=
  match s.toList with
  | '0' :: 'x' :: c :: cs => digitsVal 16 0 (c :: cs)
  | c :: cs => digitsVal 10 0 (c :: cs)
  | [] => none

/-- A value to write: a number of at most 32 bits. -/
def parseData (s : String) : Option Word :=
  match parseNat s with
  | some v => if dataFits v then some (BitVec.ofNat 32 v) else none
  | none => none

/-- A register: a name of R24, or r<idx> for an index in hex (R97). -/
def parseReg (s : String) : Option RegIdx :=
  match registerNames.findIdx? (· == s) with
  | some i => some (BitVec.ofNat 6 i)
  | none =>
    match s.toList with
    | 'r' :: '0' :: 'x' :: c :: cs =>
      match digitsVal 16 0 (c :: cs) with
      | some i => if indexFits i then some (BitVec.ofNat 6 i) else none
      | none => none
    | _ => none

/-- The words of a line: everything before ; cut at spaces, tabs and commas (R97; DESIGN CHOICE, log entry 10). The
first argument is the word being read, reversed. -/
def lineWords (cur : List Char) : List Char → List String
  | [] => if cur = [] then [] else [String.ofList cur.reverse]
  | c :: cs =>
    if c = ';' then if cur = [] then [] else [String.ofList cur.reverse]
    else if c = ' ' ∨ c = '\t' ∨ c = ',' then
      if cur = [] then lineWords [] cs else String.ofList cur.reverse :: lineWords [] cs
    else lineWords (c :: cur) cs

/-- Every argument read as a value to write; none if one is not. -/
def parseArgs : List String → Option (List Word)
  | [] => some []
  | s :: ss =>
    match parseData s, parseArgs ss with
    | some v, some vs => some (v :: vs)
    | _, _ => none

/-- A pseudo-instruction from its name and its arguments (R98). -/
def parsePseudo (name : String) (args : List Word) : Option Pseudo :=
  match name, args with
  | "src", [a, n] => some (.src a n)
  | "dst", [a, cap] => some (.dst a cap)
  | "geom", [w, h, bpp] => some (.geom w h bpp)
  | "planes", [a, r, g, b] => some (.planes a r g b)
  | "blocks", [a, r, g, b] => some (.blocks a r g b)
  | "lens", [a, r, g, b] => some (.lens a r g b)
  | "enc", [a, n, d, cap] => some (.enc a n d cap)
  | "dec", [a, n, d, cap] => some (.dec a n d cap)
  | "clrsticky", [] => some .clrsticky
  | _, _ => none

/-- The transactions of one line's words (R97, R98): wr NAME, value; rd NAME; a command mnemonic on its own, which is
wr CMD, <command word>; or a pseudo-instruction. An empty line has none. -/
def assembleWords : List String → Option (List Instr)
  | [] => some []
  | "wr" :: args =>
    match args with
    | [n, v] =>
      match parseReg n, parseData v with
      | some i, some d => some [.regWrite i d]
      | _, _ => none
    | _ => none
  | "rd" :: args =>
    match args with
    | [n] => (parseReg n).map fun i => [.regRead i]
    | _ => none
  | name :: args =>
    match commandNames.findIdx? (· == name), args with
    | some k, [] => some [.regWrite 0x00 (BitVec.ofNat 32 (k + 1))]
    | some _, _ :: _ => none
    | none, args =>
      match parseArgs args with
      | some vs => (parsePseudo name vs).map Pseudo.expand
      | none => none

/-- The transactions of a line of a host program; none if it is not a line of R97 or R98. -/
def assembleLine (line : String) : Option (List Instr) := assembleWords (lineWords [] line.toList)

/-- The transactions of a host program, one line after the other; none if a line is wrong. -/
def assemble : List String → Option (List Instr)
  | [] => some []
  | l :: ls =>
    match assembleLine l, assemble ls with
    | some is, some rest => some (is ++ rest)
    | _, _ => none

/-- The host events of a program: its transactions, in order. -/
def hostProgram (is : List Instr) : List HostEvent := is.map fun i => .transaction (deliver (encode i))

end Sys2Proof.Machine
end

