-- ==== Sys2Proof/Safety.lean ====
section
/-!
DEFINITION. What holds of every state a run reaches: the invariant of the machine.
-/

namespace Sys2Proof.Machine

/-- FCODE is a listed value, and FAULT = 1 exactly when it names a fault (60_exceptions.md R210, 10_state.md R28;
93_implementation_defined.md I8). STICKY is not tied to FAULT: the host may clear it after a fault (R29). -/
def Status.Ok (st : Status) : Prop := legalFcode st.fcode = true ∧ (st.fault = true ↔ st.fcode ≠ 0x00#8)

/-- HDR_BPP "always holds 0 (reset), 24 or 32" (10_state.md R40). -/
def DepthOk (bpp : Half) : Prop := bpp = 0#16 ∨ bpp = 24#16 ∨ bpp = 32#16

/-- The invariant: memory in canonical form within [0, MEM_SIZE) (20_memory.md R70), STATUS and HDR_BPP as the spec
says they can be. -/
structure State.Inv (s : State) : Prop where
  mem_wf : Memory.wf s.mem = true
  status_ok : s.regs.status.Ok
  depth_ok : DepthOk s.regs.hdrBpp

/-! ## The terms in which statements say what a command leaves -/

/-- s after command word w ended in a fault with this code: STATUS and LAST_CMD, nothing else (60_exceptions.md R221). -/
def faultedState (w : Word) (code : BitVec 8) (s : State) : State :=
  { s with regs := { s.regs with lastCmd := w, status := ⟨true, true, code⟩ } }

/-- The registers after command word w succeeded with RESULT_LEN = n and wrote no other register
(40_host_interface.md R114). -/
def completedRegs (w : Word) (n : Nat) (r : Regs) : Regs :=
  { r with lastCmd := w, resultLen := BitVec.ofNat 32 n, status := ⟨false, r.status.sticky, 0x00#8⟩ }

/-- What the host has still to do and what it has read are as before. -/
def keepsHost (s t : State) : Prop := t.pending = s.pending ∧ t.returned = s.returned

/-- Every byte outside a range reads as before. -/
def unchangedOutside (x : Range) (m m' : Memory) : Prop := ∀ a, ¬ x.mem a → readByte m' a = readByte m a

/-- The 32-byte header at address d holds the header registers r, with this aLen field (43_container.md R180). -/
def headerAt (m : Memory) (d : Nat) (r : Regs) (aLen : Word) : Prop :=
  load16 m d = 0x0101#16 ∧ load16 m (d + 2) = r.hdrScrW ∧ load16 m (d + 4) = r.hdrScrH ∧
  load16 m (d + 6) = r.hdrBpp ∧ load16 m (d + 8) = r.hdrLeft ∧ load16 m (d + 10) = r.hdrRight ∧
  load16 m (d + 12) = r.hdrTop ∧ load16 m (d + 14) = r.hdrBottom ∧ load32 m (d + 16) = aLen ∧
  load32 m (d + 20) = r.hdrRLen ∧ load32 m (d + 24) = r.hdrGLen ∧ load32 m (d + 28) = r.hdrBLen

/-- s with other flags in STATUS. -/
def State.withStatus (s : State) (st : Status) : State := { s with regs := { s.regs with status := st } }

end Sys2Proof.Machine
end

