-- ==== Sys2Proof/Certificates/Slice0/Obligations.lean ====
section
/-!
DEFINITION. The statements for the provers, each from a numbered rule of the spec or derived from its sections.
-/

open Sys2Proof Sys2Proof.Machine

/-! ## Encoding (30_encoding.md) -/

/-- R96 with R91, R92, R94: decoding the encoding of any instruction gives it back, every operand at every value (that
the encoder writes DATA = 0 in a read is the model's choice, log entry 11). -/
def Obligations.DecodeEncodeAgree : Prop := ∀ i : Instr, decode (encode i) = .ok i

/-- R96: a command word is some command's if and only if it is that command's encoding, and a transaction is
determined by its instruction but for the DATA bits of a read. -/
def Obligations.EncodeDecodeAgree : Prop :=
  (∀ (w : Word) (i : Instr), decode (.cmd32 w) = .ok i ↔ encode i = .cmd32 w) ∧
  (∀ (t : Transaction) (idx : RegIdx) (v : Word),
    decode (.host39 t) = .ok (.regWrite idx v) ↔ encode (.regWrite idx v) = .host39 t) ∧
  (∀ (t : Transaction) (idx : RegIdx),
    decode (.host39 t) = .ok (.regRead idx) ↔ t.getLsbD 38 = false ∧ t.extractLsb' 32 6 = idx)

/-- R92: the legal command words, and IllegalCommand, with the word, for every other. -/
def Obligations.LegalCommandWords : Prop := ∀ w : Word,
  (legalCommand w = true ↔
    w.extractLsb' 8 24 = 0#24 ∧ 1 ≤ (w.extractLsb' 0 8).toNat ∧ (w.extractLsb' 0 8).toNat ≤ 8) ∧
  ((∃ i, decode (.cmd32 w) = .ok i) ↔ legalCommand w = true) ∧
  (legalCommand w = false → decode (.cmd32 w) = .error (.illegalCommand w))

/-- R94 and R91, on words written out from the tables. -/
def Obligations.OpcodeMapWords : Prop :=
  decode (.cmd32 0x00000001#32) = .ok .rleEnc ∧ decode (.cmd32 0x00000002#32) = .ok .rleDec ∧
  decode (.cmd32 0x00000003#32) = .ok .planeSplit ∧ decode (.cmd32 0x00000004#32) = .ok .planeMerge ∧
  decode (.cmd32 0x00000005#32) = .ok .hdrWrite ∧ decode (.cmd32 0x00000006#32) = .ok .hdrRead ∧
  decode (.cmd32 0x00000007#32) = .ok .grdPack ∧ decode (.cmd32 0x00000008#32) = .ok .geomDefault ∧
  decode (.host39 0x4800012345#39) = .ok (.regWrite 0x08#6 0x00012345#32) ∧
  decode (.host39 0x1600000000#39) = .ok (.regRead 0x16#6)

/-- R98: the expansions of the pseudo-instructions. -/
def Obligations.PseudoExpansions : Prop := ∀ a b c d : Word,
  (Pseudo.src a b).expand = [.regWrite 0x04#6 a, .regWrite 0x05#6 b] ∧
  (Pseudo.dst a b).expand = [.regWrite 0x06#6 a, .regWrite 0x07#6 b] ∧
  (Pseudo.geom a b c).expand = [.regWrite 0x08#6 a, .regWrite 0x09#6 b, .regWrite 0x0A#6 c] ∧
  (Pseudo.planes a b c d).expand =
    [.regWrite 0x0B#6 a, .regWrite 0x0C#6 b, .regWrite 0x0D#6 c, .regWrite 0x0E#6 d] ∧
  (Pseudo.blocks a b c d).expand =
    [.regWrite 0x0F#6 a, .regWrite 0x10#6 b, .regWrite 0x11#6 c, .regWrite 0x12#6 d] ∧
  (Pseudo.lens a b c d).expand =
    [.regWrite 0x1B#6 a, .regWrite 0x1C#6 b, .regWrite 0x1D#6 c, .regWrite 0x1E#6 d] ∧
  (Pseudo.enc a b c d).expand =
    (Pseudo.src a b).expand ++ (Pseudo.dst c d).expand ++ [.regWrite 0x00#6 0x00000001#32] ∧
  (Pseudo.dec a b c d).expand =
    (Pseudo.src a b).expand ++ (Pseudo.dst c d).expand ++ [.regWrite 0x00#6 0x00000002#32] ∧
  Pseudo.clrsticky.expand = [.regWrite 0x01#6 0x00000002#32]

/-! ## Steps, reset, idling -/

/-- A step runs the decoded instruction: the oldest pending transaction is taken, and exec of what it decodes to is the
step (R90, R91, R78; the queue is the model's own, log entry 1). -/
def Obligations.StepRunsDecodedTransaction : Prop :=
  ∀ (s : State) (t : Transaction) (rest : List HostEvent) (i : Instr),
    s.pending = .transaction t :: rest → decode (.host39 t) = .ok i → step s = exec i { s with pending := rest }

/-- A row of the opcode table, placed as the next transaction, is what the next step runs; a command word is delivered
by REG_WRITE to CMD (R90, R112). That the word is placed at the front of the pending events is the model's choice, log
entry 1. -/
def Obligations.FetchedTableWordRuns : Prop :=
  ∀ (s : State) (nbits w : Nat) (i : Instr),
    decodeTableWord nbits w = some i → step (s.withFetchWord nbits w) = exec i s

/-- R240, R241: a step that takes the reset input sets every register to its reset value, read as the host reads it, and
leaves the memory (that the input comes as a host event is the model's choice, log entries 1 and 5). -/
def Obligations.ResetInputResetsRegistersOnly : Prop :=
  ∀ (s : State) (rest : List HostEvent), s.pending = .reset :: rest →
    ∃ t, step s = .next t ∧ t.mem = s.mem ∧ t.pending = rest ∧ t.returned = s.returned ∧
      t.regs.status = ⟨false, false, 0x00#8⟩ ∧
      ∀ i : RegIdx, readIndex t.regs i = if i = 0x13#6 then 0x00000101#32 else 0x00000000#32

/-- R240: reset sets every register to the reset column of R24, from any state and in the state right after reset.
That nothing is listed in the latter's memory is the model's choice, log entry 4, and is not stated here. -/
def Obligations.ResetRegisterValues : Prop :=
  (∀ (s : State) (i : RegIdx),
    readIndex (resetBlock s).regs i = if i = 0x13#6 then 0x00000101#32 else 0x00000000#32) ∧
  (∀ i : RegIdx, readIndex State.reset.regs i = if i = 0x13#6 then 0x00000101#32 else 0x00000000#32) ∧
  State.reset.regs.status = ⟨false, false, 0x00#8⟩ ∧ State.reset.regs.hdrBpp = 0#16

/-- R228, R242: with no host event pending the block is idle and holds its state (the queue is the model's own, log
entry 1); a host's memory write between transactions writes that byte and nothing else (log entry 6). -/
def Obligations.IdleAndHostWriteSteps : Prop :=
  (∀ s : State, s.pending = [] → step s = .next s) ∧
  (∀ (s : State) (a : Word) (b : Byte) (rest : List HostEvent), Memory.wf s.mem = true →
    s.pending = .memWrite a b :: rest →
    ∃ t, step s = .next t ∧ t.regs = s.regs ∧ t.pending = rest ∧ t.returned = s.returned ∧
      readByte t.mem a.toNat = b ∧ ∀ x, x ≠ a.toNat → readByte t.mem x = readByte s.mem x)

/-- The invariant holds right after reset (derived; the empty memory is the model's choice, log entry 4). -/
def Obligations.InvariantHoldsAtReset : Prop := State.reset.Inv

/-- From every state with the invariant, a step answers a next state, and it has the invariant: the memory stays
canonical (20_memory.md R70), FCODE stays a listed value that agrees with FAULT (60_exceptions.md R210, 10_state.md R28),
HDR_BPP stays 0, 24 or 32 (10_state.md R40). That a step always answers a next state is the model's inference, DEDUCED in
log entry 8 from 60_exceptions.md R221 and 30_encoding.md R91, R96. That a step takes the oldest pending event, and that
the reset input and the host's memory writes are such events, is the model's choice, log entries 1, 5 and 6. -/
def Obligations.StepKeepsInvariant : Prop := ∀ s : State, s.Inv → ∃ t, step s = .next t ∧ t.Inv

/-! ## Host transactions (10_state.md, 40_host_interface.md) -/

/-- R111: what REG_READ returns at every index, and that a read changes no register and no memory. That the returned
value is appended to the list `returned` is the model's choice for the host's read-data path, log entry 2. -/
def Obligations.RegReadReturns : Prop := ∀ s : State,
  (∀ i : RegIdx, exec (.regRead i) s = .next { s with returned := s.returned ++ [readIndex s.regs i] }) ∧
  readIndex s.regs 0x00#6 = 0#32 ∧
  readIndex s.regs 0x01#6 = s.regs.status.fcode.setWidth 32 <<< 8 |||
    (BitVec.ofBool s.regs.status.sticky).setWidth 32 <<< 1 ||| (BitVec.ofBool s.regs.status.fault).setWidth 32 ∧
  readIndex s.regs 0x02#6 = s.regs.resultLen ∧ readIndex s.regs 0x03#6 = s.regs.lastCmd ∧
  readIndex s.regs 0x04#6 = s.regs.srcAddr ∧ readIndex s.regs 0x05#6 = s.regs.srcLen ∧
  readIndex s.regs 0x06#6 = s.regs.dstAddr ∧ readIndex s.regs 0x07#6 = s.regs.dstCap ∧
  readIndex s.regs 0x08#6 = s.regs.imgW.setWidth 32 ∧ readIndex s.regs 0x09#6 = s.regs.imgH.setWidth 32 ∧
  readIndex s.regs 0x0A#6 = s.regs.imgBpp.setWidth 32 ∧
  readIndex s.regs 0x0B#6 = s.regs.planeA ∧ readIndex s.regs 0x0C#6 = s.regs.planeR ∧
  readIndex s.regs 0x0D#6 = s.regs.planeG ∧ readIndex s.regs 0x0E#6 = s.regs.planeB ∧
  readIndex s.regs 0x0F#6 = s.regs.blkA ∧ readIndex s.regs 0x10#6 = s.regs.blkR ∧
  readIndex s.regs 0x11#6 = s.regs.blkG ∧ readIndex s.regs 0x12#6 = s.regs.blkB ∧
  readIndex s.regs 0x13#6 = 0x00000101#32 ∧
  readIndex s.regs 0x14#6 = s.regs.hdrScrW.setWidth 32 ∧ readIndex s.regs 0x15#6 = s.regs.hdrScrH.setWidth 32 ∧
  readIndex s.regs 0x16#6 = s.regs.hdrBpp.setWidth 32 ∧
  readIndex s.regs 0x17#6 = s.regs.hdrLeft.setWidth 32 ∧ readIndex s.regs 0x18#6 = s.regs.hdrRight.setWidth 32 ∧
  readIndex s.regs 0x19#6 = s.regs.hdrTop.setWidth 32 ∧ readIndex s.regs 0x1A#6 = s.regs.hdrBottom.setWidth 32 ∧
  readIndex s.regs 0x1B#6 = s.regs.hdrALen ∧ readIndex s.regs 0x1C#6 = s.regs.hdrRLen ∧
  readIndex s.regs 0x1D#6 = s.regs.hdrGLen ∧ readIndex s.regs 0x1E#6 = s.regs.hdrBLen ∧
  ∀ i : RegIdx, 0x1F ≤ i.toNat → readIndex s.regs i = 0#32

/-- R28: the fields of the STATUS word a host reads; every other bit reads 0. -/
def Obligations.StatusWordFields : Prop := ∀ st : Status,
  (statusWord st).getLsbD 0 = st.fault ∧ (statusWord st).getLsbD 1 = st.sticky ∧
  (statusWord st).extractLsb' 8 8 = st.fcode ∧
  ∀ k, (2 ≤ k ∧ k < 8) ∨ 16 ≤ k → (statusWord st).getLsbD k = false

/-- R25, R110: a write to a read-write register is what a read of it returns next, bits 15:0 zero-extended in a 16-bit
register; every other register, all of memory and the host's side are as before. -/
def Obligations.RegWriteStoresOneRegister : Prop := ∀ (s : State) (i : RegIdx) (v : Word),
  (i ∈ [0x08#6, 0x09#6, 0x0A#6, 0x14#6, 0x15#6, 0x17#6, 0x18#6, 0x19#6, 0x1A#6] →
    ∃ t, exec (.regWrite i v) s = .next t ∧ readIndex t.regs i = (v.extractLsb' 0 16).setWidth 32 ∧
      (∀ j, j ≠ i → readIndex t.regs j = readIndex s.regs j) ∧ t.mem = s.mem ∧ keepsHost s t) ∧
  (i ∈ [0x04#6, 0x05#6, 0x06#6, 0x07#6, 0x0B#6, 0x0C#6, 0x0D#6, 0x0E#6, 0x0F#6, 0x10#6, 0x11#6, 0x12#6,
        0x1B#6, 0x1C#6, 0x1D#6, 0x1E#6] →
    ∃ t, exec (.regWrite i v) s = .next t ∧ readIndex t.regs i = v ∧
      (∀ j, j ≠ i → readIndex t.regs j = readIndex s.regs j) ∧ t.mem = s.mem ∧ keepsHost s t)

/-- R26 and the RO rows of R24: a write to a reserved index or to RESULT_LEN, LAST_CMD, HDR_PACKTYPE or HDR_BPP
changes nothing; a reserved index reads 0 (what a read answers with readIndex is RegReadReturns). -/
def Obligations.ReservedAndReadOnlyIgnoreWrites : Prop := ∀ (s : State) (i : RegIdx) (v : Word),
  (0x1F ≤ i.toNat → exec (.regWrite i v) s = .next s ∧ readIndex s.regs i = 0x00000000#32) ∧
  (i ∈ [0x02#6, 0x03#6, 0x13#6, 0x16#6] → exec (.regWrite i v) s = .next s)

/-- R29: a write of v to STATUS clears STICKY when v[1] = 1 and changes nothing else. -/
def Obligations.StatusWriteClearsSticky : Prop := ∀ (s : State) (v : Word),
  exec (.regWrite 0x01#6 v) s = .next (s.withStatus
    { s.regs.status with sticky := if v.getLsbD 1 then false else s.regs.status.sticky })

/-- R27, R211: a write of w to CMD runs the command w encodes; an illegal word writes LAST_CMD and ends in
IllegalCommand; LAST_CMD is w in every case; CMD reads 0. -/
def Obligations.CmdWriteRunsItsCommand : Prop := ∀ (s : State) (w : Word),
  (∀ i, decode (.cmd32 w) = .ok i → exec (.regWrite 0x00#6 w) s = exec i s) ∧
  (legalCommand w = false → exec (.regWrite 0x00#6 w) s = .next (faultedState w 0x10#8 s)) ∧
  (∃ t, exec (.regWrite 0x00#6 w) s = .next t ∧ t.regs.lastCmd = w) ∧
  readIndex s.regs 0x00#6 = 0x00000000#32

/-! ## The frame of a command (40_host_interface.md, 60_exceptions.md) -/

/-- R115, R221, R114: a command always ends; a faulting end changes STATUS and LAST_CMD only, a successful end clears
FAULT and FCODE and keeps STICKY. -/
def Obligations.CommandEnds : Prop := ∀ (i : Instr) (w : Word) (s : State), encode i = .cmd32 w →
  ∃ t, exec i s = .next t ∧ t.regs.lastCmd = w ∧ keepsHost s t ∧
    (t.regs.status.fault = true →
      legalFcode t.regs.status.fcode = true ∧ t.regs.status.fcode ≠ 0x00#8 ∧
      t = faultedState w t.regs.status.fcode s) ∧
    (t.regs.status.fault = false → t.regs.status = ⟨false, s.regs.status.sticky, 0x00#8⟩)

/-- R43: no command reads a flag. Run from the same state with other flags, a command does the same, but that STICKY is
kept by a success. -/
def Obligations.NoCommandReadsAFlag : Prop := ∀ (i : Instr) (w : Word) (s : State) (st : Status) (t : State),
  encode i = .cmd32 w → exec i s = .next t →
    ∃ u, exec i (s.withStatus st) = .next u ∧ u.withStatus t.regs.status = t ∧
      u.regs.status.fault = t.regs.status.fault ∧ u.regs.status.fcode = t.regs.status.fcode

/-- R222: after a command that faulted, the next command does exactly what it would have done without it; if it
succeeds, FAULT and FCODE are cleared and STICKY stays set. -/
def Obligations.ContinuationAfterFault : Prop :=
  ∀ (i j : Instr) (w v : Word) (s t u : State), encode i = .cmd32 w → encode j = .cmd32 v →
    exec i s = .next t → t.regs.status.fault = true → exec j t = .next u →
      ∃ u', exec j s = .next u' ∧ u.withStatus u'.regs.status = u' ∧
        u.regs.status.fault = u'.regs.status.fault ∧ u.regs.status.fcode = u'.regs.status.fcode ∧
        (u.regs.status.fault = false → u.regs.status = ⟨false, true, 0x00#8⟩)

/-- The registers a command may write (R24, column "Block writes"; R93, R118): operand registers never; header and
block registers only as their row says. -/
def Obligations.CommandRegisterFrame : Prop := ∀ (i : Instr) (w : Word) (s t : State),
  encode i = .cmd32 w → exec i s = .next t →
    (t.regs.srcAddr = s.regs.srcAddr ∧ t.regs.srcLen = s.regs.srcLen ∧ t.regs.dstAddr = s.regs.dstAddr ∧
      t.regs.dstCap = s.regs.dstCap ∧ t.regs.imgW = s.regs.imgW ∧ t.regs.imgH = s.regs.imgH ∧
      t.regs.imgBpp = s.regs.imgBpp ∧ ∀ c, planeReg t.regs c = planeReg s.regs c) ∧
    (i ≠ .hdrRead → ∀ c, blkReg t.regs c = blkReg s.regs c ∧ lenReg t.regs c = lenReg s.regs c) ∧
    (i ≠ .hdrRead → i ≠ .geomDefault →
      t.regs.hdrScrW = s.regs.hdrScrW ∧ t.regs.hdrScrH = s.regs.hdrScrH ∧ t.regs.hdrLeft = s.regs.hdrLeft ∧
      t.regs.hdrRight = s.regs.hdrRight ∧ t.regs.hdrTop = s.regs.hdrTop ∧ t.regs.hdrBottom = s.regs.hdrBottom) ∧
    (i ≠ .hdrRead → i ≠ .planeSplit → t.regs.hdrBpp = s.regs.hdrBpp)

/-- R33: a command that writes at DST_ADDR writes no byte outside [DST_ADDR, DST_ADDR + DST_CAP). -/
def Obligations.StoresStayInDestination : Prop := ∀ (i : Instr) (s t : State),
  i ∈ [Instr.rleEnc, .rleDec, .planeMerge, .hdrWrite, .grdPack] → Memory.wf s.mem = true →
    exec i s = .next t → unchangedOutside (dstRange s.regs) s.mem t.mem

/-- R93, column "memory written": HDR_READ, GEOM_DEFAULT, every read and every write to an index other than CMD leave
the memory. -/
def Obligations.NonStoringInstructionsKeepMemory : Prop := ∀ (s t : State),
  (∀ i ∈ [Instr.hdrRead, .geomDefault], exec i s = .next t → t.mem = s.mem) ∧
  (∀ idx, exec (.regRead idx) s = .next t → t.mem = s.mem ∧ t.regs = s.regs) ∧
  (∀ idx v, idx ≠ 0x00#6 → exec (.regWrite idx v) s = .next t → t.mem = s.mem)

/-- R40: an instruction changes HDR_BPP only if it is PLANE_SPLIT, which makes it IMG_BPP, or HDR_READ, or a CMD write of
one of these words, and then it is 24 or 32. -/
def Obligations.HdrBppWrittenOnlyBySplitAndRead : Prop := ∀ (i : Instr) (s t : State),
  exec i s = .next t → t.regs.hdrBpp ≠ s.regs.hdrBpp →
    (i = .planeSplit ∨ i = .hdrRead ∨ i = .regWrite 0x00#6 0x00000003#32 ∨ i = .regWrite 0x00#6 0x00000006#32) ∧
    (t.regs.hdrBpp = 24#16 ∨ t.regs.hdrBpp = 32#16) ∧
    (i = .planeSplit → t.regs.hdrBpp = s.regs.imgBpp)

/-! ## Ranges and channels (00_scope.md, 20_memory.md) -/

/-- R12: two ranges overlap exactly when they share an address, and a range is in range exactly when each of its
addresses is below MEM_SIZE or it is empty and begins at most there (R73). -/
def Obligations.RangeOverlapMeansSharedAddress : Prop := ∀ x y : Range,
  (x.overlaps y = true ↔ ∃ a, x.mem a ∧ y.mem a) ∧
  (x.inRange = true ↔ (∀ a, x.mem a → a < 2 ^ 32) ∧ x.base ≤ 2 ^ 32)

/-- R11, R162: the channels of each depth, their order and their offsets. -/
def Obligations.DepthChannels : Prop :=
  channels 32#16 = some [.a, .r, .g, .b] ∧ channels 24#16 = some [.r, .g, .b] ∧
  (∀ bpp : Half, bpp ≠ 24#16 → bpp ≠ 32#16 → channels bpp = none) ∧
  Channel.off .a = 0 ∧ Channel.off .r = 1 ∧ Channel.off .g = 2 ∧ Channel.off .b = 3

/-! ## ChannelRLE (41_rle.md) -/

/-- R138, whole: RLE_ENC's faults in their order, and its success. -/
def Obligations.RleEncFollowsItsRule : Prop := ∀ s : State, Memory.wf s.mem = true →
  let src := srcRange s.regs
  let dst := dstRange s.regs
  let out := rleEncode (memRead s.mem src.base src.len)
  (src.inRange = false ∨ dst.inRange = false → exec .rleEnc s = .next (faultedState 0x00000001#32 0x11#8 s)) ∧
  (src.inRange = true → dst.inRange = true →
    (dst.overlaps src = true → exec .rleEnc s = .next (faultedState 0x00000001#32 0x12#8 s)) ∧
    (dst.overlaps src = false →
      (dst.len < out.length → exec .rleEnc s = .next (faultedState 0x00000001#32 0x13#8 s)) ∧
      (out.length ≤ dst.len →
        ∃ t, exec .rleEnc s = .next t ∧ memRead t.mem dst.base out.length = out ∧
          unchangedOutside ⟨dst.base, out.length⟩ s.mem t.mem ∧
          t.regs = completedRegs 0x00000001#32 out.length s.regs ∧ keepsHost s t)))

/-- R139, whole: RLE_DEC's faults in their order, and its success. -/
def Obligations.RleDecFollowsItsRule : Prop := ∀ s : State, Memory.wf s.mem = true →
  let src := srcRange s.regs
  let dst := dstRange s.regs
  let r := rleDecode (memRead s.mem src.base src.len)
  (src.inRange = false ∨ dst.inRange = false → exec .rleDec s = .next (faultedState 0x00000002#32 0x11#8 s)) ∧
  (src.inRange = true → dst.inRange = true →
    (dst.overlaps src = true → exec .rleDec s = .next (faultedState 0x00000002#32 0x12#8 s)) ∧
    (dst.overlaps src = false →
      (r = none → exec .rleDec s = .next (faultedState 0x00000002#32 0x04#8 s)) ∧
      (∀ out, r = some out →
        (dst.len < out.length → exec .rleDec s = .next (faultedState 0x00000002#32 0x13#8 s)) ∧
        (out.length ≤ dst.len →
          ∃ t, exec .rleDec s = .next t ∧ memRead t.mem dst.base out.length = out ∧
            unchangedOutside ⟨dst.base, out.length⟩ s.mem t.mem ∧
            t.regs = completedRegs 0x00000002#32 out.length s.regs ∧ keepsHost s t))))

/-- R132: where the first two elements are equal, Encode emits one repeat run, as long as the value lasts up to 127, and
goes on after it. -/
def Obligations.EncodeRepeatRun : Prop := ∀ (v : Byte) (rest : List Byte),
  ∃ c, 2 ≤ c ∧ c ≤ 127 ∧ (v :: v :: rest).take c = List.replicate c v ∧
    (c = 127 ∨ ((v :: v :: rest).drop c).head? ≠ some v) ∧
    rleEncode (v :: v :: rest) = (0x80#8 ||| BitVec.ofNat 8 c) :: v :: rleEncode ((v :: v :: rest).drop c)

/-- R133: where they are not, Encode emits one literal run, as long as each element differs from the one just before it
up to 127, and goes on after it; the empty input gives the empty output (R131). -/
def Obligations.EncodeLiteralRun : Prop :=
  rleEncode [] = [] ∧
  ∀ (v : Byte) (rest : List Byte), rest.head? ≠ some v →
    ∃ c, 1 ≤ c ∧ c ≤ 127 ∧ c ≤ (v :: rest).length ∧
      (∀ k, 0 < k → k < c → (v :: rest)[k]? ≠ (v :: rest)[k - 1]?) ∧
      (c = 127 ∨ c = (v :: rest).length ∨ (v :: rest)[c]? = (v :: rest)[c - 1]?) ∧
      rleEncode (v :: rest) = BitVec.ofNat 8 c :: ((v :: rest).take c ++ rleEncode ((v :: rest).drop c))

/-- R134, (a) to (e): the properties of the runs Encode emits and of its output's length. -/
def Obligations.EncodeProperties : Prop :=
  (∀ s : List Byte, ∀ r ∈ encodeRuns s, 1 ≤ r.count ∧ r.count ≤ 127) ∧
  (∀ s : List Byte, ∀ c v, Run.rep c v ∈ encodeRuns s → 2 ≤ c) ∧
  (∀ (s : List Byte) (pre post : List Run) (bs : List Byte), encodeRuns s = pre ++ .lit bs :: post →
    (2 ≤ bs.length ∨ (post = [] ∧ ∃ b, bs = [b] ∧ s.getLast? = some b)) ∧
    ∀ k, k + 1 < bs.length → bs[k + 1]? ≠ bs[k]?) ∧
  (∀ s : List Byte, 1 ≤ s.length → (rleEncode s).length ≤ (3 * s.length + 1) / 2) ∧
  rleEncode [] = [] ∧
  (rleEncode [0x01#8, 0x02#8, 0x02#8, 0x03#8, 0x03#8]).length = 8 ∧
  (∀ s : List Byte, s ≠ [] → 2 ≤ (rleEncode s).length)

/-- R135: Decode, run by run. -/
def Obligations.DecodeRunByRun : Prop :=
  rleDecode [] = some [] ∧
  (∀ h : Byte, h.getLsbD 7 = true → rleDecode [h] = none) ∧
  (∀ (h v : Byte) (rest : List Byte), h.getLsbD 7 = true →
    rleDecode (h :: v :: rest) = (rleDecode rest).map (List.replicate (h.toNat % 128) v ++ ·)) ∧
  (∀ (h : Byte) (rest : List Byte), h.getLsbD 7 = false → rest.length < h.toNat → rleDecode (h :: rest) = none) ∧
  (∀ (h : Byte) (rest : List Byte), h.getLsbD 7 = false → h.toNat ≤ rest.length →
    rleDecode (h :: rest) = (rleDecode (rest.drop h.toNat)).map (rest.take h.toNat ++ ·))

/-- R136: a stream is malformed exactly when, after some whole runs, a repeat count byte is the last byte or a literal
count byte h is followed by fewer than h bytes; and the rule's example of a stream Encode would not write. -/
def Obligations.MalformedStreamIff : Prop :=
  rleDecode [0x02#8, 0x05#8, 0x05#8] = some [0x05#8, 0x05#8] ∧ rleEncode [0x05#8, 0x05#8] = [0x82#8, 0x05#8] ∧
  ∀ b : List Byte, rleDecode b = none ↔
    ∃ (rs : List Run) (h : Byte) (tail : List Byte), (∀ r ∈ rs, r.count < 128) ∧
      b = rs.flatMap Run.bytes ++ h :: tail ∧
      ((h.getLsbD 7 = true ∧ tail = []) ∨ (h.getLsbD 7 = false ∧ tail.length < h.toNat))

/-- R137: the zero counts 0x00 and 0x80 are runs of no bytes on decode, and Encode produces neither. -/
def Obligations.ZeroCountsEmitNothing : Prop :=
  (∀ rest : List Byte, rleDecode (0x00#8 :: rest) = rleDecode rest) ∧
  (∀ (v : Byte) (rest : List Byte), rleDecode (0x80#8 :: v :: rest) = rleDecode rest) ∧
  rleDecode [0x80#8] = none ∧
  (∀ s : List Byte, ∀ r ∈ encodeRuns s, r.bytes.head? ≠ some 0x00#8 ∧ r.bytes.head? ≠ some 0x80#8)

/-- R140: Decode of Encode is the identity; so RLE_ENC into a buffer and RLE_DEC of that buffer, with SRC_LEN set to the
first command's RESULT_LEN, writes the plane back; the converse fails for some stream. -/
def Obligations.RleRoundTrip : Prop :=
  (∀ s : List Byte, rleDecode (rleEncode s) = some s) ∧
  (∀ (s t : State) (d cap : Word), Memory.wf s.mem = true → exec .rleEnc s = .next t →
    t.regs.status.fault = false →
    (Range.mk d.toNat cap.toNat).inRange = true →
    (Range.mk d.toNat cap.toNat).overlaps ⟨s.regs.dstAddr.toNat, t.regs.resultLen.toNat⟩ = false →
    s.regs.srcLen.toNat ≤ cap.toNat →
    ∃ u, exec .rleDec { t with regs := { t.regs with
        srcAddr := s.regs.dstAddr, srcLen := t.regs.resultLen, dstAddr := d, dstCap := cap } } = .next u ∧
      u.regs.status.fault = false ∧ u.regs.resultLen = s.regs.srcLen ∧
      memRead u.mem d.toNat s.regs.srcLen.toNat = memRead s.mem s.regs.srcAddr.toNat s.regs.srcLen.toNat) ∧
  (∃ b s : List Byte, rleDecode b = some s ∧ rleEncode s ≠ b)

/-! ## PixelPlanarizer (42_planar.md) -/

/-- R163, whole: PLANE_SPLIT's faults in their order, and its success: every channel byte of every pixel at its place in
its plane, no other byte changed. -/
def Obligations.PlaneSplitFollowsItsRule : Prop := ∀ s : State, Memory.wf s.mem = true →
  let w := s.regs.imgW.toNat
  let h := s.regs.imgH.toNat
  let src := imageSrcRange s.regs
  (channels s.regs.imgBpp = none → exec .planeSplit s = .next (faultedState 0x00000003#32 0x01#8 s)) ∧
  ∀ cs, channels s.regs.imgBpp = some cs →
    ((src.inRange = false ∨ ∃ c ∈ cs, (planeRange s.regs c).inRange = false) →
      exec .planeSplit s = .next (faultedState 0x00000003#32 0x11#8 s)) ∧
    (src.inRange = true → (∀ c ∈ cs, (planeRange s.regs c).inRange = true) →
      (((∃ c ∈ cs, (planeRange s.regs c).overlaps src = true) ∨
          ∃ c ∈ cs, ∃ c' ∈ cs, c ≠ c' ∧ (planeRange s.regs c).overlaps (planeRange s.regs c') = true) →
        exec .planeSplit s = .next (faultedState 0x00000003#32 0x12#8 s)) ∧
      ((∀ c ∈ cs, (planeRange s.regs c).overlaps src = false) →
        (∀ c ∈ cs, ∀ c' ∈ cs, c ≠ c' → (planeRange s.regs c).overlaps (planeRange s.regs c') = false) →
        ∃ t, exec .planeSplit s = .next t ∧
          (∀ c ∈ cs, ∀ x y, x < w → y < h →
            readByte t.mem ((planeReg s.regs c).toNat + ((h - 1 - y) * w + x)) =
              readByte s.mem (s.regs.srcAddr.toNat + 4 * (y * w + x) + c.off)) ∧
          (∀ a, (∀ c ∈ cs, ¬ (planeRange s.regs c).mem a) → readByte t.mem a = readByte s.mem a) ∧
          t.regs = { completedRegs 0x00000003#32 (w * h) s.regs with hdrBpp := s.regs.imgBpp } ∧ keepsHost s t))

/-- R164, whole: PLANE_MERGE's faults in their order, and its success: every channel byte of every pixel back from its
plane, FILL24 at offset 0 for depth 24, whatever its value, and no other byte changed. -/
def Obligations.PlaneMergeFollowsItsRule : Prop := ∀ s : State, Memory.wf s.mem = true →
  let w := s.regs.imgW.toNat
  let h := s.regs.imgH.toNat
  let dst := dstRange s.regs
  (channels s.regs.hdrBpp = none → exec .planeMerge s = .next (faultedState 0x00000004#32 0x01#8 s)) ∧
  ∀ cs, channels s.regs.hdrBpp = some cs →
    ((dst.inRange = false ∨ ∃ c ∈ cs, (planeRange s.regs c).inRange = false) →
      exec .planeMerge s = .next (faultedState 0x00000004#32 0x11#8 s)) ∧
    (dst.inRange = true → (∀ c ∈ cs, (planeRange s.regs c).inRange = true) →
      ((∃ c ∈ cs, dst.overlaps (planeRange s.regs c) = true) →
        exec .planeMerge s = .next (faultedState 0x00000004#32 0x12#8 s)) ∧
      ((∀ c ∈ cs, dst.overlaps (planeRange s.regs c) = false) →
        (dst.len < 4 * (w * h) → exec .planeMerge s = .next (faultedState 0x00000004#32 0x13#8 s)) ∧
        (4 * (w * h) ≤ dst.len →
          ∃ t, exec .planeMerge s = .next t ∧
            (∀ c ∈ cs, ∀ x y, x < w → y < h →
              readByte t.mem (dst.base + (4 * (y * w + x) + c.off)) =
                readByte s.mem ((planeReg s.regs c).toNat + ((h - 1 - y) * w + x))) ∧
            (s.regs.hdrBpp = 24#16 → ∀ x y, x < w → y < h →
              readByte t.mem (dst.base + 4 * (y * w + x)) = Config.fill24) ∧
            unchangedOutside ⟨dst.base, 4 * (w * h)⟩ s.mem t.mem ∧
            t.regs = completedRegs 0x00000004#32 (4 * (w * h)) s.regs ∧ keepsHost s t)))

/-- R166: (a) and (b) a split and then a merge write the image back, but for FILL24 at offset 0 of each pixel at depth
24; (c) a merge and then a split of the merged image write the planes back. -/
def Obligations.PlanarInverseLaws : Prop :=
  (∀ (s t u : State) (d cap : Word), Memory.wf s.mem = true → exec .planeSplit s = .next t →
    t.regs.status.fault = false →
    exec .planeMerge { t with regs := { t.regs with dstAddr := d, dstCap := cap } } = .next u →
    u.regs.status.fault = false →
    ∀ k, k < s.regs.imgW.toNat * s.regs.imgH.toNat → ∀ o, o < 4 →
      readByte u.mem (d.toNat + (4 * k + o)) =
        if s.regs.imgBpp = 24#16 ∧ o = 0 then Config.fill24
        else readByte s.mem (s.regs.srcAddr.toNat + (4 * k + o))) ∧
  (∀ (s t u : State), Memory.wf s.mem = true → exec .planeMerge s = .next t → t.regs.status.fault = false →
    exec .planeSplit { t with regs := { t.regs with srcAddr := s.regs.dstAddr, imgBpp := s.regs.hdrBpp } } = .next u →
    u.regs.status.fault = false →
    ∀ cs, channels s.regs.hdrBpp = some cs → ∀ c ∈ cs, ∀ i, i < s.regs.imgW.toNat * s.regs.imgH.toNat →
      readByte u.mem ((planeReg s.regs c).toNat + i) = readByte s.mem ((planeReg s.regs c).toNat + i))

/-! ## GrdContainer (43_container.md) -/

/-- R181, R182: HDR_WRITE's faults in their order, and its success: each header field at its offset, aLen 0 at depth 24,
and no other byte changed. -/
def Obligations.HdrWriteFollowsItsRule : Prop := ∀ s : State, Memory.wf s.mem = true →
  let dst := dstRange s.regs
  (channels s.regs.hdrBpp = none → exec .hdrWrite s = .next (faultedState 0x00000005#32 0x01#8 s)) ∧
  (channels s.regs.hdrBpp ≠ none →
    (dst.inRange = false → exec .hdrWrite s = .next (faultedState 0x00000005#32 0x11#8 s)) ∧
    (dst.inRange = true →
      (dst.len < 32 → exec .hdrWrite s = .next (faultedState 0x00000005#32 0x13#8 s)) ∧
      (32 ≤ dst.len →
        ∃ t, exec .hdrWrite s = .next t ∧
          headerAt t.mem dst.base s.regs (if s.regs.hdrBpp = 32#16 then s.regs.hdrALen else 0#32) ∧
          unchangedOutside ⟨dst.base, 32⟩ s.mem t.mem ∧
          t.regs = completedRegs 0x00000005#32 32 s.regs ∧ keepsHost s t)))

/-- R183, whole: GRD_PACK's faults in their order, and its success: the header, then the blocks of the depth in the
order A, R, G, B, and no other byte changed. -/
def Obligations.GrdPackFollowsItsRule : Prop := ∀ s : State, Memory.wf s.mem = true →
  let dst := dstRange s.regs
  (channels s.regs.hdrBpp = none → exec .grdPack s = .next (faultedState 0x00000007#32 0x01#8 s)) ∧
  ∀ cs, channels s.regs.hdrBpp = some cs →
    let total := 32 + (cs.map fun c => (lenReg s.regs c).toNat).sum
    ((dst.inRange = false ∨ ∃ c ∈ cs, (blkRange s.regs c).inRange = false) →
      exec .grdPack s = .next (faultedState 0x00000007#32 0x11#8 s)) ∧
    (dst.inRange = true → (∀ c ∈ cs, (blkRange s.regs c).inRange = true) →
      ((∃ c ∈ cs, dst.overlaps (blkRange s.regs c) = true) →
        exec .grdPack s = .next (faultedState 0x00000007#32 0x12#8 s)) ∧
      ((∀ c ∈ cs, dst.overlaps (blkRange s.regs c) = false) →
        (dst.len < total → exec .grdPack s = .next (faultedState 0x00000007#32 0x13#8 s)) ∧
        (total ≤ dst.len →
          ∃ t, exec .grdPack s = .next t ∧
            headerAt t.mem dst.base s.regs (if s.regs.hdrBpp = 32#16 then s.regs.hdrALen else 0#32) ∧
            memRead t.mem (dst.base + 32) (total - 32) =
              cs.flatMap (fun c => memRead s.mem (blkReg s.regs c).toNat (lenReg s.regs c).toNat) ∧
            unchangedOutside ⟨dst.base, total⟩ s.mem t.mem ∧
            t.regs = completedRegs 0x00000007#32 total s.regs ∧ keepsHost s t)))

/-- R184: the checks of HDR_READ, in their order of priority. -/
def Obligations.HdrReadChecks : Prop := ∀ s : State,
  let a := s.regs.srcAddr.toNat
  let n := s.regs.srcLen.toNat
  let bpp := load16 s.mem (a + 6)
  let total := 32 + (load32 s.mem (a + 16)).toNat + (load32 s.mem (a + 20)).toNat + (load32 s.mem (a + 24)).toNat +
    (load32 s.mem (a + 28)).toNat
  let ends := fun code => exec .hdrRead s = .next (faultedState 0x00000006#32 code s)
  ((srcRange s.regs).inRange = false → ends 0x11#8) ∧
  ((srcRange s.regs).inRange = true →
    (n < 32 → ends 0x03#8) ∧
    (32 ≤ n →
      (load16 s.mem a ≠ 0x0101#16 → ends 0x02#8) ∧
      (load16 s.mem a = 0x0101#16 →
        (bpp ≠ 24#16 ∧ bpp ≠ 32#16 → ends 0x01#8) ∧
        (bpp = 24#16 ∧ load32 s.mem (a + 16) ≠ 0#32 → ends 0x14#8) ∧
        (bpp = 32#16 ∨ (bpp = 24#16 ∧ load32 s.mem (a + 16) = 0#32) → n < total → ends 0x03#8))))

/-- R185: the effects of HDR_READ when every check of R184 passes. -/
def Obligations.HdrReadLoadsHeader : Prop := ∀ s : State,
  let a := s.regs.srcAddr.toNat
  let n := s.regs.srcLen.toNat
  let bpp := load16 s.mem (a + 6)
  let aL := load32 s.mem (a + 16)
  let rL := load32 s.mem (a + 20)
  let gL := load32 s.mem (a + 24)
  let bL := load32 s.mem (a + 28)
  let total := 32 + aL.toNat + rL.toNat + gL.toNat + bL.toNat
  (srcRange s.regs).inRange = true → 32 ≤ n → load16 s.mem a = 0x0101#16 →
  bpp = 32#16 ∨ (bpp = 24#16 ∧ aL = 0#32) → total ≤ n →
    exec .hdrRead s = .next { s with regs := { completedRegs 0x00000006#32 total s.regs with
      hdrScrW := load16 s.mem (a + 2), hdrScrH := load16 s.mem (a + 4), hdrBpp := bpp,
      hdrLeft := load16 s.mem (a + 8), hdrRight := load16 s.mem (a + 10),
      hdrTop := load16 s.mem (a + 12), hdrBottom := load16 s.mem (a + 14),
      hdrALen := aL, hdrRLen := rL, hdrGLen := gL, hdrBLen := bL,
      blkA := s.regs.srcAddr + 32#32, blkR := s.regs.srcAddr + 32#32 + aL,
      blkG := s.regs.srcAddr + 32#32 + aL + rL, blkB := s.regs.srcAddr + 32#32 + aL + rL + gL } }

/-- R186: GEOM_DEFAULT always succeeds and writes the default geometry, and nothing else. -/
def Obligations.GeomDefaultWritesGeometry : Prop := ∀ s : State,
  exec .geomDefault s = .next { s with regs := { completedRegs 0x00000008#32 0 s.regs with
    hdrLeft := 0#16, hdrTop := 0#16, hdrRight := s.regs.imgW, hdrBottom := s.regs.imgH,
    hdrScrW := 0#16, hdrScrH := 0#16 } }

/-- R188: HDR_READ of the container GRD_PACK wrote succeeds, loads the same header registers but HDR_ALEN = 0 at depth
24, and BLK[c] addresses a byte-exact copy of each block of the depth. -/
def Obligations.ContainerRoundTrip : Prop := ∀ s t : State, Memory.wf s.mem = true →
  exec .grdPack s = .next t → t.regs.status.fault = false →
  ∃ u, exec .hdrRead { t with regs := { t.regs with
      srcAddr := s.regs.dstAddr, srcLen := t.regs.resultLen } } = .next u ∧
    u.regs.status.fault = false ∧
    u.regs.hdrScrW = s.regs.hdrScrW ∧ u.regs.hdrScrH = s.regs.hdrScrH ∧ u.regs.hdrBpp = s.regs.hdrBpp ∧
    u.regs.hdrLeft = s.regs.hdrLeft ∧ u.regs.hdrRight = s.regs.hdrRight ∧ u.regs.hdrTop = s.regs.hdrTop ∧
    u.regs.hdrBottom = s.regs.hdrBottom ∧
    u.regs.hdrALen = (if s.regs.hdrBpp = 24#16 then 0#32 else s.regs.hdrALen) ∧
    u.regs.hdrRLen = s.regs.hdrRLen ∧ u.regs.hdrGLen = s.regs.hdrGLen ∧ u.regs.hdrBLen = s.regs.hdrBLen ∧
    ∀ cs, channels s.regs.hdrBpp = some cs → ∀ c ∈ cs,
      memRead u.mem (blkReg u.regs c).toNat (lenReg s.regs c).toNat =
        memRead s.mem (blkReg s.regs c).toNat (lenReg s.regs c).toNat

/-- R189: a container written with HDR_BPP = 24 has aLen = 0 and no A bytes (its length counts only R, G and B); one
written with HDR_BPP = 32 whose HDR_ALEN is the RESULT_LEN of an RLE_ENC of a non-empty plane has aLen ≥ 2. -/
def Obligations.ChannelPresence : Prop :=
  (∀ s t : State, Memory.wf s.mem = true → exec .grdPack s = .next t → t.regs.status.fault = false →
    s.regs.hdrBpp = 24#16 →
    load32 t.mem (s.regs.dstAddr.toNat + 16) = 0#32 ∧
    t.regs.resultLen.toNat =
      32 + s.regs.hdrRLen.toNat + s.regs.hdrGLen.toNat + s.regs.hdrBLen.toNat) ∧
  (∀ e f s t : State, exec .rleEnc e = .next f → f.regs.status.fault = false → e.regs.srcLen ≠ 0#32 →
    Memory.wf s.mem = true → s.regs.hdrALen = f.regs.resultLen → s.regs.hdrBpp = 32#16 →
    exec .grdPack s = .next t → t.regs.status.fault = false →
    2 ≤ (load32 t.mem (s.regs.dstAddr.toNat + 16)).toNat)

/-- R38: HDR_PACKTYPE reads 0x00000101 always (what a read answers with readIndex is RegReadReturns), a host write of it
changes nothing, and HDR_WRITE and GRD_PACK write it as the first two bytes of what they write, 01 01. -/
def Obligations.PackTypeHardwired : Prop :=
  (∀ s : State, readIndex s.regs 0x13#6 = 0x00000101#32) ∧
  (∀ (s : State) (v : Word), exec (.regWrite 0x13#6 v) s = .next s) ∧
  (∀ (i : Instr) (s t : State), i = .hdrWrite ∨ i = .grdPack → Memory.wf s.mem = true → exec i s = .next t →
    t.regs.status.fault = false →
    readByte t.mem s.regs.dstAddr.toNat = 0x01#8 ∧ readByte t.mem (s.regs.dstAddr.toNat + 1) = 0x01#8)

/-- R249: destination capacities with which no command ends in OutputOverflow: RLE_ENC; RLE_DEC of a stream that passes
the check of R247 (it decodes to W·H bytes); PLANE_MERGE; HDR_WRITE; GRD_PACK. -/
def Obligations.CapacitiesThatNeverOverflow : Prop := ∀ s : State,
  let cap := s.regs.dstCap.toNat
  let wh := s.regs.imgW.toNat * s.regs.imgH.toNat
  let noOverflow := fun i => ∃ t, exec i s = .next t ∧ t.regs.status.fcode ≠ 0x13#8
  ((3 * s.regs.srcLen.toNat + 1) / 2 ≤ cap → noOverflow .rleEnc) ∧
  (∀ out, rleDecode (memRead s.mem s.regs.srcAddr.toNat s.regs.srcLen.toNat) = some out → out.length = wh →
    wh ≤ cap → noOverflow .rleDec) ∧
  (4 * wh ≤ cap → noOverflow .planeMerge) ∧
  (32 ≤ cap → noOverflow .hdrWrite) ∧
  (∀ cs, channels s.regs.hdrBpp = some cs → 32 + (cs.map fun c => (lenReg s.regs c).toNat).sum ≤ cap →
    noOverflow .grdPack)
end

