-- ==== Sys2Proof/Laws/State.lean ====
section
/-!
SUPPORT. What each update of the state does to each field, and what reading a register after writing one gives: true by
unfolding once here, so that no later proof unfolds a record update.
-/

namespace Sys2Proof.Machine

/-! ## The frame of a command -/

@[simp] theorem recordCommand_regs (w : Word) (s : State) :
    (recordCommand w s).regs = { s.regs with lastCmd := w } := rfl
@[simp] theorem recordCommand_mem (w : Word) (s : State) : (recordCommand w s).mem = s.mem := rfl
@[simp] theorem recordCommand_pending (w : Word) (s : State) : (recordCommand w s).pending = s.pending := rfl
@[simp] theorem recordCommand_returned (w : Word) (s : State) : (recordCommand w s).returned = s.returned := rfl

@[simp] theorem raise_regs (f : BlockFault) (s : State) :
    (raise f s).regs = { s.regs with status := faultStatus f } := rfl
@[simp] theorem raise_mem (f : BlockFault) (s : State) : (raise f s).mem = s.mem := rfl
@[simp] theorem raise_pending (f : BlockFault) (s : State) : (raise f s).pending = s.pending := rfl
@[simp] theorem raise_returned (f : BlockFault) (s : State) : (raise f s).returned = s.returned := rfl

@[simp] theorem commit_regs (c : Commit) (s : State) :
    (commit c s).regs = { applyRegWrites s.regs c.regWrites with
      resultLen := BitVec.ofNat 32 c.result, status := okStatus s.regs.status } := rfl
@[simp] theorem commit_mem (c : Commit) (s : State) : (commit c s).mem = applyStores s.mem c.stores := rfl
@[simp] theorem commit_pending (c : Commit) (s : State) : (commit c s).pending = s.pending := rfl
@[simp] theorem commit_returned (c : Commit) (s : State) : (commit c s).returned = s.returned := rfl

@[simp] theorem faultStatus_fault (f : BlockFault) : (faultStatus f).fault = true := rfl
@[simp] theorem faultStatus_sticky (f : BlockFault) : (faultStatus f).sticky = true := rfl
@[simp] theorem faultStatus_fcode (f : BlockFault) : (faultStatus f).fcode = f.code := rfl
@[simp] theorem okStatus_fault (st : Status) : (okStatus st).fault = false := rfl
@[simp] theorem okStatus_sticky (st : Status) : (okStatus st).sticky = st.sticky := rfl
@[simp] theorem okStatus_fcode (st : Status) : (okStatus st).fcode = 0x00#8 := rfl

@[simp] theorem clearSticky_fault (st : Status) (v : Word) : (clearSticky st v).fault = st.fault := by
  unfold clearSticky; split <;> rfl
@[simp] theorem clearSticky_fcode (st : Status) (v : Word) : (clearSticky st v).fcode = st.fcode := by
  unfold clearSticky; split <;> rfl
@[simp] theorem clearSticky_sticky (st : Status) (v : Word) :
    (clearSticky st v).sticky = (st.sticky && !v.getLsbD 1) := by
  unfold clearSticky; split <;> simp_all

@[simp] theorem applyStores_nil (m : Memory) : applyStores m [] = m := rfl
@[simp] theorem applyStores_cons (m : Memory) (w : Nat × List Byte) (ws : List (Nat × List Byte)) :
    applyStores m (w :: ws) = applyStores (memWrite m w.1 w.2) ws := rfl
@[simp] theorem applyRegWrites_nil (r : Regs) : applyRegWrites r [] = r := rfl
@[simp] theorem applyRegWrites_cons (r : Regs) (w : Reg × Word) (ws : List (Reg × Word)) :
    applyRegWrites r (w :: ws) = applyRegWrites (setReg r w.1 w.2) ws := rfl

/-! ## The host's own steps -/

@[simp] theorem hostMemWrite_regs (a : Word) (b : Byte) (s : State) : (hostMemWrite a b s).regs = s.regs := rfl
@[simp] theorem hostMemWrite_mem (a : Word) (b : Byte) (s : State) :
    (hostMemWrite a b s).mem = writeByte s.mem a.toNat b := rfl
@[simp] theorem hostMemWrite_pending (a : Word) (b : Byte) (s : State) :
    (hostMemWrite a b s).pending = s.pending := rfl
@[simp] theorem hostMemWrite_returned (a : Word) (b : Byte) (s : State) :
    (hostMemWrite a b s).returned = s.returned := rfl

@[simp] theorem resetBlock_regs (s : State) : (resetBlock s).regs = Regs.reset := rfl
@[simp] theorem resetBlock_mem (s : State) : (resetBlock s).mem = s.mem := rfl
@[simp] theorem resetBlock_pending (s : State) : (resetBlock s).pending = s.pending := rfl
@[simp] theorem resetBlock_returned (s : State) : (resetBlock s).returned = s.returned := rfl

@[simp] theorem takeEvent_nil (s : State) (h : s.pending = []) : takeEvent s = none := by
  unfold takeEvent; rw [h]
@[simp] theorem takeEvent_cons (s : State) (e : HostEvent) (rest : List HostEvent) (h : s.pending = e :: rest) :
    takeEvent s = some (e, { s with pending := rest }) := by
  unfold takeEvent; rw [h]

/-! ## Registers -/

/-- The registers setReg stores something in: all but CMD, HDR_PACKTYPE (which hold nothing) and STATUS (which is
written field by field). -/
def Reg.stored : Reg → Bool
  | .cmd | .status | .hdrPackType => false
  | _ => true

/-- What a register of R24 reads after a write of v: bits 15:0 zero-extended in a 16-bit register, all of v in a 32-bit
one (10_state.md R25). -/
def storedValue (n : Reg) (v : Word) : Word := if regWidth n = 16 then (v.setWidth 16).setWidth 32 else v

theorem getReg_setReg_same (r : Regs) (n : Reg) (v : Word) (h : n.stored = true) :
    getReg (setReg r n v) n = storedValue n v := by
  cases n <;> first | rfl | exact absurd h (by decide)

theorem getReg_setReg_of_ne (r : Regs) (n k : Reg) (v : Word) (h : k ≠ n) :
    getReg (setReg r n v) k = getReg r k := by
  cases n <;> first | rfl | (cases k <;> first | rfl | exact absurd rfl h)

/-- A write to a register that stores nothing changes nothing. -/
theorem setReg_of_not_stored (r : Regs) (n : Reg) (v : Word) (h : n.stored = false) : setReg r n v = r := by
  cases n <;> first | rfl | exact absurd h (by decide)

@[simp] theorem setReg_status (r : Regs) (n : Reg) (v : Word) : (setReg r n v).status = r.status := by
  cases n <;> rfl

theorem setReg_hdrBpp_of_ne (r : Regs) (n : Reg) (v : Word) (h : n ≠ .hdrBpp) :
    (setReg r n v).hdrBpp = r.hdrBpp := by
  cases n <;> first | rfl | exact absurd rfl h

/-- Only RW registers are written by the host's REG_WRITE with their value, and they all store it. -/
theorem stored_of_readWrite (n : Reg) (h : hostAccess n = .readWrite) : n.stored = true := by
  cases n <;> first | rfl | exact absurd h (by decide)

/-- The two directions of the register map agree. -/
theorem regAt_index (n : Reg) : regAt n.index = some n := by cases n <;> rfl

theorem index_of_regAt (i : RegIdx) (n : Reg) (h : regAt i = some n) : n.index = i := by
  have key : ∀ a : Fin 64, ((regAt (BitVec.ofFin a)).map Reg.index).getD (BitVec.ofFin a) = BitVec.ofFin a := by
    decide
  have := key i.toFin
  simpa [h] using this

/-- Two indices that name the same register are equal. -/
theorem regAt_injective (i j : RegIdx) (n : Reg) (hi : regAt i = some n) (hj : regAt j = some n) : i = j :=
  (index_of_regAt i n hi).symm.trans (index_of_regAt j n hj)

@[simp] theorem BitVec16_setWidth_roundtrip (v : Half) : (v.setWidth 32).setWidth 16 = v := by
  apply BitVec.eq_of_toNat_eq; simp

end Sys2Proof.Machine
end

