-- ==== Sys2Proof/Laws/Memory.lean ====
section
/-!
SUPPORT. The laws of the data memory: what a read sees after a write, that every write keeps the canonical form, and what
the multi-byte reads and writes come to byte by byte.
-/

namespace Sys2Proof.Machine

@[simp] theorem memSize_eq : Config.memSize = 4294967296 := rfl

/-! ## The canonical form -/

theorem wfFrom_cons {lo k : Nat} {v : Byte} {m : Memory} :
    wfFrom lo ((k, v) :: m) = true ↔
      lo ≤ k ∧ k < Config.memSize ∧ v ≠ Config.unlistedByte ∧ wfFrom (k + 1) m = true := by
  simp only [wfFrom, Bool.and_eq_true, decide_eq_true_eq, and_assoc]

theorem wfFrom_mono {lo lo' : Nat} {m : Memory} (h : lo' ≤ lo) (hw : wfFrom lo m = true) : wfFrom lo' m = true := by
  cases m with
  | nil => rfl
  | cons c m =>
    obtain ⟨k, v⟩ := c
    rw [wfFrom_cons] at hw ⊢
    exact ⟨by omega, hw.2⟩

/-- Below the first listed address nothing is listed. -/
theorem readByte_of_lt {lo a : Nat} {m : Memory} (hw : wfFrom lo m = true) (h : a < lo) :
    readByte m a = Config.unlistedByte := by
  induction m generalizing lo with
  | nil => rfl
  | cons c m ih =>
    obtain ⟨k, v⟩ := c
    rw [wfFrom_cons] at hw
    rw [readByte, if_neg (by omega)]
    exact ih hw.2.2.2 (by omega)

/-- A canonical memory reads as an unlisted address at and past MEM_SIZE. -/
theorem readByte_of_memSize_le {lo a : Nat} {m : Memory} (hw : wfFrom lo m = true) (h : Config.memSize ≤ a) :
    readByte m a = Config.unlistedByte := by
  induction m generalizing lo with
  | nil => rfl
  | cons c m ih =>
    obtain ⟨k, v⟩ := c
    rw [wfFrom_cons] at hw
    rw [readByte, if_neg (by omega)]
    exact ih hw.2.2.2

theorem wfFrom_writeByte {lo a : Nat} {m : Memory} {b : Byte} (hw : wfFrom lo m = true) (hlo : lo ≤ a)
    (ha : a < Config.memSize) : wfFrom lo (writeByte m a b) = true := by
  induction m generalizing lo with
  | nil =>
    unfold writeByte
    split
    · rfl
    · exact wfFrom_cons.2 ⟨hlo, ha, ‹_›, rfl⟩
  | cons c m ih =>
    obtain ⟨k, v⟩ := c
    obtain ⟨h1, h2, h3, h4⟩ := wfFrom_cons.1 hw
    unfold writeByte
    split
    · split
      · exact hw
      · exact wfFrom_cons.2 ⟨hlo, ha, ‹_›, wfFrom_cons.2 ⟨by omega, h2, h3, h4⟩⟩
    · split
      · split
        · exact wfFrom_mono (by omega) h4
        · exact wfFrom_cons.2 ⟨hlo, ha, ‹_›, by simpa [‹a = k›] using h4⟩
      · exact wfFrom_cons.2 ⟨h1, h2, h3, ih h4 (by omega)⟩

/-- Writing a byte in the address space keeps the canonical form. -/
theorem Memory.wf_writeByte {m : Memory} {a : Nat} {b : Byte} (hw : Memory.wf m = true) (ha : a < Config.memSize) :
    Memory.wf (writeByte m a b) = true := wfFrom_writeByte hw (Nat.zero_le a) ha

/-! ## Read after write -/

theorem readByte_writeByte_from {lo : Nat} {m : Memory} (hw : wfFrom lo m = true) (a x : Nat) (b : Byte) :
    readByte (writeByte m a b) x = if x = a then b else readByte m x := by
  induction m generalizing lo with
  | nil =>
    unfold writeByte
    split
    · next hb => simp [readByte, hb]
    · simp [readByte, eq_comm]
  | cons c m ih =>
    obtain ⟨k, v⟩ := c
    obtain ⟨h1, h2, h3, h4⟩ := wfFrom_cons.1 hw
    unfold writeByte
    split
    · split
      · next hb =>
        split
        · next hx => rw [hx, hb]; exact readByte_of_lt (lo := k) (wfFrom_cons.2 ⟨le_refl _, h2, h3, h4⟩) ‹_›
        · rfl
      · by_cases hx : x = a
        · simp [readByte, hx]
        · simp [readByte, hx, Ne.symm hx]
    · split
      · next hk =>
        subst hk
        split
        · next hb =>
          by_cases hx : x = a
          · rw [if_pos hx, hx, hb]; exact readByte_of_lt h4 (by omega)
          · simp [readByte, hx, Ne.symm hx]
        · by_cases hx : x = a
          · simp [readByte, hx]
          · simp [readByte, hx, Ne.symm hx]
      · next hk =>
        rw [readByte]
        split
        · next hkx => subst hkx; rw [if_neg (Ne.symm hk), readByte, if_pos rfl]
        · next hkx => rw [ih h4, readByte, if_neg hkx]

/-- A read after a write: the byte written there, every other address as before (20_memory.md R75). -/
theorem readByte_writeByte {m : Memory} (hw : Memory.wf m = true) (a x : Nat) (b : Byte) :
    readByte (writeByte m a b) x = if x = a then b else readByte m x := readByte_writeByte_from hw a x b

/-- Two canonical memories that read the same are the same list. -/
theorem Memory.ext_of_wfFrom {lo : Nat} {m m' : Memory} (h : wfFrom lo m = true) (h' : wfFrom lo m' = true)
    (heq : ∀ a, readByte m a = readByte m' a) : m = m' := by
  induction m generalizing lo m' with
  | nil =>
    cases m' with
    | nil => rfl
    | cons c m' =>
      obtain ⟨k, v⟩ := c
      have := heq k
      simp only [readByte, if_true] at this
      exact absurd this.symm (wfFrom_cons.1 h').2.2.1
  | cons c m ih =>
    obtain ⟨k, v⟩ := c
    obtain ⟨-, -, h3, h4⟩ := wfFrom_cons.1 h
    cases m' with
    | nil =>
      have := heq k
      simp only [readByte, if_true] at this
      exact absurd this h3
    | cons c' m' =>
      obtain ⟨k', v'⟩ := c'
      obtain ⟨-, -, h3', h4'⟩ := wfFrom_cons.1 h'
      rcases lt_trichotomy k k' with hk | hk | hk
      · have := heq k
        rw [readByte, if_pos rfl, readByte, if_neg (by omega), readByte_of_lt h4' (by omega)] at this
        exact absurd this h3
      · subst hk
        have hv := heq k
        simp only [readByte, if_true] at hv
        subst hv
        congr 1
        refine ih h4 h4' fun a => ?_
        by_cases ha : k = a
        · subst ha; rw [readByte_of_lt h4 (by omega), readByte_of_lt h4' (by omega)]
        · simpa [readByte, ha] using heq a
      · have := heq k'
        rw [readByte, if_neg (by omega), readByte, if_pos rfl, readByte_of_lt h4 (by omega)] at this
        exact absurd this.symm h3'

theorem Memory.ext {m m' : Memory} (h : Memory.wf m = true) (h' : Memory.wf m' = true)
    (heq : ∀ a, readByte m a = readByte m' a) : m = m' := Memory.ext_of_wfFrom h h' heq

/-! ## MemWrite -/

theorem Memory.wf_memWrite {m : Memory} {a : Nat} {bs : List Byte} (hw : Memory.wf m = true)
    (ha : a + bs.length ≤ Config.memSize) : Memory.wf (memWrite m a bs) = true := by
  induction bs generalizing m a with
  | nil => exact hw
  | cons b bs ih =>
    rw [List.length_cons] at ha
    exact ih (Memory.wf_writeByte hw (by omega)) (by omega)

/-- What a read sees after MemWrite: the byte of the list inside, the old byte outside. -/
theorem readByte_memWrite {m : Memory} (hw : Memory.wf m = true) {a : Nat} {bs : List Byte}
    (ha : a + bs.length ≤ Config.memSize) (x : Nat) :
    readByte (memWrite m a bs) x = if a ≤ x then bs[x - a]?.getD (readByte m x) else readByte m x := by
  induction bs generalizing m a with
  | nil => simp [memWrite]
  | cons b bs ih =>
    rw [List.length_cons] at ha
    rw [memWrite, ih (Memory.wf_writeByte hw (by omega)) (by omega), readByte_writeByte hw]
    by_cases h1 : a + 1 ≤ x
    · obtain ⟨d, rfl⟩ : ∃ d, x = a + 1 + d := ⟨x - (a + 1), by omega⟩
      rw [if_pos h1, if_neg (by omega), if_pos (by omega), show a + 1 + d - (a + 1) = d by omega,
        show a + 1 + d - a = d + 1 by omega, List.getElem?_cons_succ]
    · rw [if_neg h1]
      by_cases h2 : x = a
      · subst h2; simp
      · rw [if_neg h2, if_neg (by omega)]

theorem readByte_memWrite_inside {m : Memory} (hw : Memory.wf m = true) {a : Nat} {bs : List Byte}
    (ha : a + bs.length ≤ Config.memSize) {i : Nat} (hi : i < bs.length) :
    readByte (memWrite m a bs) (a + i) = bs[i] := by
  rw [readByte_memWrite hw ha, if_pos (by omega), show a + i - a = i by omega, List.getElem?_eq_getElem hi]; rfl

theorem readByte_memWrite_outside {m : Memory} (hw : Memory.wf m = true) {a : Nat} {bs : List Byte}
    (ha : a + bs.length ≤ Config.memSize) {x : Nat} (hx : x < a ∨ a + bs.length ≤ x) :
    readByte (memWrite m a bs) x = readByte m x := by
  rw [readByte_memWrite hw ha]
  split
  · rw [List.getElem?_eq_none (by omega)]; rfl
  · rfl

/-! ## MemRead -/

@[simp] theorem memRead_length (m : Memory) (a n : Nat) : (memRead m a n).length = n := by
  induction n generalizing a with
  | zero => rfl
  | succ n ih => simp [memRead, ih]

theorem memRead_getElem {m : Memory} {a n i : Nat} (h : i < (memRead m a n).length) :
    (memRead m a n)[i] = readByte m (a + i) := by
  induction n generalizing a i with
  | zero => simp [memRead] at h
  | succ n ih =>
    cases i with
    | zero => rfl
    | succ i => simp only [memRead, List.getElem_cons_succ]; rw [ih, show a + 1 + i = a + (i + 1) by omega]

/-- MemRead depends only on the bytes of its range. -/
theorem memRead_congr {m m' : Memory} {a a' n : Nat}
    (h : ∀ i, i < n → readByte m (a + i) = readByte m' (a' + i)) : memRead m a n = memRead m' a' n := by
  apply List.ext_getElem (by simp)
  intro i h1 _
  rw [memRead_getElem, memRead_getElem]
  exact h i (by simpa using h1)

/-- MemRead of what MemWrite wrote. -/
theorem memRead_memWrite_self {m : Memory} (hw : Memory.wf m = true) {a : Nat} {bs : List Byte}
    (ha : a + bs.length ≤ Config.memSize) : memRead (memWrite m a bs) a bs.length = bs := by
  apply List.ext_getElem (by simp)
  intro i h1 h2
  rw [memRead_getElem, readByte_memWrite_inside hw ha h2]

/-- MemRead of two parts. -/
theorem memRead_add (m : Memory) (a n k : Nat) : memRead m a (n + k) = memRead m a n ++ memRead m (a + n) k := by
  induction n generalizing a with
  | zero => simp [memRead]
  | succ n ih =>
    rw [Nat.add_right_comm, memRead, memRead, ih, List.cons_append, Nat.add_right_comm a 1 n, Nat.add_assoc a n 1]

/-! ## The memory writes of a commit set -/

/-- A store as the range of addresses it writes. -/
abbrev storeRange (w : Nat × List Byte) : Range := ⟨w.1, w.2.length⟩

theorem Memory.wf_applyStores {ws : List (Nat × List Byte)} {m : Memory} (hw : Memory.wf m = true)
    (hr : ∀ w ∈ ws, (storeRange w).inRange = true) : Memory.wf (applyStores m ws) = true := by
  induction ws generalizing m with
  | nil => exact hw
  | cons w ws ih =>
    have h1 := hr w (List.mem_cons_self ..)
    replace h1 : w.1 + w.2.length ≤ Config.memSize := of_decide_eq_true h1
    exact ih (Memory.wf_memWrite hw h1) fun x hx => hr x (List.mem_cons_of_mem _ hx)

/-- Outside every store the memory reads as before. -/
theorem readByte_applyStores_outside {ws : List (Nat × List Byte)} {m : Memory} (hw : Memory.wf m = true)
    (hr : ∀ w ∈ ws, (storeRange w).inRange = true) {a : Nat} (ha : ∀ w ∈ ws, ¬ (storeRange w).mem a) :
    readByte (applyStores m ws) a = readByte m a := by
  induction ws generalizing m with
  | nil => rfl
  | cons w ws ih =>
    have h1 := hr w (List.mem_cons_self ..)
    have h2 := ha w (List.mem_cons_self ..)
    replace h1 : w.1 + w.2.length ≤ Config.memSize := of_decide_eq_true h1
    simp only [Range.mem, not_and, not_lt] at h2
    rw [applyStores_cons, ih (Memory.wf_memWrite hw h1) (fun x hx => hr x (List.mem_cons_of_mem _ hx))
      (fun x hx => ha x (List.mem_cons_of_mem _ hx)), readByte_memWrite_outside hw h1 (by omega)]

/-- Inside a store, where no other store of the set overlaps it, the memory reads as its bytes. -/
theorem readByte_applyStores_inside {ws : List (Nat × List Byte)} {m : Memory} (hw : Memory.wf m = true)
    (hr : ∀ w ∈ ws, (storeRange w).inRange = true)
    (hp : ws.Pairwise fun x y => (storeRange x).overlaps (storeRange y) = false)
    {w : Nat × List Byte} (hm : w ∈ ws) {i : Nat} (hi : i < w.2.length) :
    readByte (applyStores m ws) (w.1 + i) = w.2[i] := by
  induction ws generalizing m with
  | nil => cases hm
  | cons v ws ih =>
    have h1 := hr v (List.mem_cons_self ..)
    have h2 : ∀ x ∈ ws, (storeRange x).inRange = true := fun x hx => hr x (List.mem_cons_of_mem _ hx)
    replace h1 : v.1 + v.2.length ≤ Config.memSize := of_decide_eq_true h1
    rw [List.pairwise_cons] at hp
    rw [applyStores_cons]
    rcases List.mem_cons.1 hm with rfl | hm
    · rw [readByte_applyStores_outside (Memory.wf_memWrite hw h1) h2 fun x hx => ?_,
        readByte_memWrite_inside hw h1 hi]
      have h3 := hp.1 x hx
      rw [← Bool.not_eq_true] at h3
      simp only [Range.overlaps, Bool.and_eq_true, decide_eq_true_eq] at h3
      simp only [Range.mem]
      omega
    · exact ih (Memory.wf_memWrite hw h1) h2 hp.2 hm

/-! ## Multi-byte fields -/

@[simp] theorem le16_length (v : Half) : (le16 v).length = 2 := rfl
@[simp] theorem le32_length (v : Word) : (le32 v).length = 4 := rfl

theorem toNat_append_eq {m n : Nat} (x : BitVec m) (y : BitVec n) :
    (x ++ y).toNat = x.toNat * 2 ^ n + y.toNat := by
  rw [BitVec.toNat_append, ← Nat.shiftLeft_add_eq_or_of_lt y.isLt, Nat.shiftLeft_eq]

/-- U16 as a number: the low byte and 256 times the high byte (00_scope.md R9). -/
theorem load16_toNat (m : Memory) (a : Nat) :
    (load16 m a).toNat = (readByte m a).toNat + 256 * (readByte m (a + 1)).toNat := by
  rw [load16, toNat_append_eq]; omega

/-- U32 as a number (00_scope.md R9). -/
theorem load32_toNat (m : Memory) (a : Nat) :
    (load32 m a).toNat = (readByte m a).toNat + 2 ^ 8 * (readByte m (a + 1)).toNat +
      2 ^ 16 * (readByte m (a + 2)).toNat + 2 ^ 24 * (readByte m (a + 3)).toNat := by
  rw [load32, toNat_append_eq, toNat_append_eq, toNat_append_eq]; omega

/-- U16 of LE16 (00_scope.md R9). -/
theorem load16_of_le16 {m : Memory} {a : Nat} {v : Half} (h0 : readByte m a = v.extractLsb' 0 8)
    (h1 : readByte m (a + 1) = v.extractLsb' 8 8) : load16 m a = v := by
  apply BitVec.eq_of_toNat_eq
  rw [load16_toNat, h0, h1]
  simp only [BitVec.extractLsb'_toNat, Nat.shiftRight_eq_div_pow]
  have := v.isLt
  omega

/-- U32 of LE32 (00_scope.md R9). -/
theorem load32_of_le32 {m : Memory} {a : Nat} {v : Word} (h0 : readByte m a = v.extractLsb' 0 8)
    (h1 : readByte m (a + 1) = v.extractLsb' 8 8) (h2 : readByte m (a + 2) = v.extractLsb' 16 8)
    (h3 : readByte m (a + 3) = v.extractLsb' 24 8) : load32 m a = v := by
  apply BitVec.eq_of_toNat_eq
  rw [load32_toNat, h0, h1, h2, h3]
  simp only [BitVec.extractLsb'_toNat, Nat.shiftRight_eq_div_pow]
  have := v.isLt
  omega

/-- U16 where LE16 stands in memory (00_scope.md R9). -/
theorem load16_of_memRead {m : Memory} {a : Nat} {v : Half} (h : memRead m a 2 = le16 v) : load16 m a = v := by
  simp only [memRead, le16, List.cons.injEq, and_true] at h
  exact load16_of_le16 h.1 h.2

/-- U32 where LE32 stands in memory (00_scope.md R9). -/
theorem load32_of_memRead {m : Memory} {a : Nat} {v : Word} (h : memRead m a 4 = le32 v) : load32 m a = v := by
  simp only [memRead, le32, List.cons.injEq, and_true] at h
  exact load32_of_le32 h.1 h.2.1 h.2.2.1 h.2.2.2

theorem load16_congr {m m' : Memory} {a a' : Nat} (h : ∀ i, i < 2 → readByte m (a + i) = readByte m' (a' + i)) :
    load16 m a = load16 m' a' := by
  have h0 := h 0 (by omega)
  have h1 := h 1 (by omega)
  simp only [Nat.add_zero] at h0
  rw [load16, load16, h0, h1]

theorem load32_congr {m m' : Memory} {a a' : Nat} (h : ∀ i, i < 4 → readByte m (a + i) = readByte m' (a' + i)) :
    load32 m a = load32 m' a' := by
  have h0 := h 0 (by omega)
  have h1 := h 1 (by omega)
  have h2 := h 2 (by omega)
  have h3 := h 3 (by omega)
  simp only [Nat.add_zero] at h0
  rw [load32, load32, h0, h1, h2, h3]

end Sys2Proof.Machine
end

