-- ==== Sys2Proof/Laws/Ops.lean ====
section
/-!
SUPPORT. What the shared operations can do, once: the two ends of a command, and what the range checks answer.
-/

namespace Sys2Proof.Machine

theorem runCommand_error {w : Word} {body : Body} {s : State} {f : BlockFault} (h : body s.regs s.mem = .error f) :
    runCommand w body s = faultedState w f.code s := by
  unfold runCommand; rw [h]; rfl

theorem runCommand_ok {w : Word} {body : Body} {s : State} {c : Commit} (h : body s.regs s.mem = .ok c) :
    runCommand w body s = commit c (recordCommand w s) := by
  unfold runCommand; rw [h]

/-- A command has two ends: the fault entry, or its commit set applied. -/
theorem runCommand_cases (w : Word) (body : Body) (s : State) :
    (∃ f, body s.regs s.mem = .error f ∧ runCommand w body s = faultedState w f.code s) ∨
    (∃ c, body s.regs s.mem = .ok c ∧ runCommand w body s = commit c (recordCommand w s)) := by
  cases h : body s.regs s.mem with
  | error f => exact .inl ⟨f, rfl, runCommand_error h⟩
  | ok c => exact .inr ⟨c, rfl, runCommand_ok h⟩

/-- A command that did not fault committed. -/
theorem runCommand_of_not_fault {w : Word} {body : Body} {s : State}
    (h : (runCommand w body s).regs.status.fault = false) :
    ∃ c, body s.regs s.mem = .ok c ∧ runCommand w body s = commit c (recordCommand w s) := by
  rcases runCommand_cases w body s with ⟨f, -, h2⟩ | h2
  · rw [h2] at h; simp [faultedState] at h
  · exact h2

/-- The code of a fault is a listed value, and not 0x00 (60_exceptions.md R210). -/
theorem code_legal (f : BlockFault) : legalFcode f.code = true ∧ f.code ≠ 0x00#8 := by cases f <;> decide

/-! ## Ranges -/

theorem inRange_iff {x : Range} : x.inRange = true ↔ x.base + x.len ≤ Config.memSize := decide_eq_true_iff

theorem overlaps_iff {x y : Range} :
    x.overlaps y = true ↔ 0 < x.len ∧ 0 < y.len ∧ x.base < y.base + y.len ∧ y.base < x.base + x.len := by
  simp [Range.overlaps, and_assoc]

theorem overlaps_comm (x y : Range) : x.overlaps y = y.overlaps x := by
  rw [Bool.eq_iff_iff, overlaps_iff, overlaps_iff]; tauto

theorem pairOverlap_iff {xs : List Range} : pairOverlap xs = false ↔ xs.Pairwise fun x y => x.overlaps y = false := by
  induction xs with
  | nil => simp [pairOverlap]
  | cons x xs ih =>
    simp only [pairOverlap, Bool.or_eq_false_iff, ih, List.pairwise_cons, List.any_eq_false]
    simp

theorem anyOverlap_false {srcs dsts : List Range} :
    anyOverlap srcs dsts = false ↔
      (∀ d ∈ dsts, ∀ x ∈ srcs, d.overlaps x = false) ∧ dsts.Pairwise fun x y => x.overlaps y = false := by
  simp [anyOverlap, pairOverlap_iff]

theorem all_inRange {srcs dsts : List Range} :
    (srcs ++ dsts).all Range.inRange = true ↔ (∀ x ∈ srcs, x.inRange = true) ∧ ∀ x ∈ dsts, x.inRange = true := by
  simp

/-- checkRanges answers none exactly when every range is in range and no destination overlaps a source or another
destination. -/
theorem checkRanges_none {srcs dsts : List Range} :
    checkRanges srcs dsts = none ↔
      (∀ x ∈ srcs, x.inRange = true) ∧ (∀ x ∈ dsts, x.inRange = true) ∧
      (∀ d ∈ dsts, ∀ x ∈ srcs, d.overlaps x = false) ∧ dsts.Pairwise fun x y => x.overlaps y = false := by
  rw [← anyOverlap_false, ← and_assoc, ← all_inRange]
  unfold checkRanges
  split
  · next h => split <;> simp_all
  · next h => exact ⟨nofun, fun h' => absurd h'.1 h⟩

/-- Out of range comes first (40_host_interface.md R113). -/
theorem checkRanges_addressRange {srcs dsts : List Range} {x : Range} (hx : x ∈ srcs ∨ x ∈ dsts)
    (h : x.inRange = false) : checkRanges srcs dsts = some .addressRange := by
  unfold checkRanges
  rw [if_neg]
  intro hall
  have := List.all_eq_true.1 hall x (List.mem_append.2 hx)
  rw [h] at this
  cases this

/-- With every range in range, an overlap is BufferOverlap. -/
theorem checkRanges_bufferOverlap {srcs dsts : List Range} (h1 : ∀ x ∈ srcs, x.inRange = true)
    (h2 : ∀ x ∈ dsts, x.inRange = true)
    (h : (∃ d ∈ dsts, ∃ x ∈ srcs, d.overlaps x = true) ∨ ¬ dsts.Pairwise fun x y => x.overlaps y = false) :
    checkRanges srcs dsts = some .bufferOverlap := by
  have ho : anyOverlap srcs dsts = true := by
    rw [← Bool.not_eq_false, anyOverlap_false]
    rintro ⟨h3, h4⟩
    rcases h with ⟨d, hd, x, hx, ho⟩ | h
    · rw [h3 d hd x hx] at ho; cases ho
    · exact h h4
  unfold checkRanges
  rw [if_pos (all_inRange.2 ⟨h1, h2⟩), if_pos ho]

/-! ## Channels -/

theorem channels_cases {bpp : Half} {cs : List Channel} (h : channels bpp = some cs) :
    (bpp = 32#16 ∧ cs = [.a, .r, .g, .b]) ∨ (bpp = 24#16 ∧ cs = [.r, .g, .b]) := by
  unfold channels at h
  split at h
  · exact .inl ⟨‹_›, (Option.some.inj h).symm⟩
  · split at h
    · exact .inr ⟨‹_›, (Option.some.inj h).symm⟩
    · cases h

theorem channels_none {bpp : Half} : channels bpp = none ↔ bpp ≠ 24#16 ∧ bpp ≠ 32#16 := by
  unfold channels
  split
  · simp [*]
  · split <;> simp [*]

theorem atOff_off (c : Channel) : Channel.atOff c.off = c := by cases c <;> rfl

/-! ## Dispatch of a command word -/

/-- The dispatch runs the meaning of the command it decodes (40_host_interface.md R112). -/
theorem execute_none {w : Word} {s : State} (h : decodeCommand w = none) :
    execute w s = .next (faultedState w 0x10#8 s) := by
  unfold execute; rw [h]; rfl

end Sys2Proof.Machine
end

