-- ==== Sys2Proof/Laws/Rle.lean ====
section
/-!
SUPPORT. The scan and the read of runs: their bounds on the number of runs never bind, and what the extents of the two run
kinds are.
-/

namespace Sys2Proof.Machine

/-! ## Extents -/

theorem repeatExtent_le_cap (v : Byte) (cap : Nat) (l : List Byte) : repeatExtent v cap l ≤ cap := by
  induction cap generalizing l with
  | zero => simp [repeatExtent]
  | succ cap ih =>
    cases l with
    | nil => simp [repeatExtent]
    | cons b l =>
      unfold repeatExtent
      have := ih l
      split <;> omega

theorem repeatExtent_le_length (v : Byte) (cap : Nat) (l : List Byte) : repeatExtent v cap l ≤ l.length := by
  induction cap generalizing l with
  | zero => simp [repeatExtent]
  | succ cap ih =>
    cases l with
    | nil => simp [repeatExtent]
    | cons b l =>
      unfold repeatExtent
      have := ih l
      rw [List.length_cons]
      split <;> omega

/-- The elements a repeat run takes all equal its value (41_rle.md R132). -/
theorem take_repeatExtent (v : Byte) (cap : Nat) (l : List Byte) :
    l.take (repeatExtent v cap l) = List.replicate (repeatExtent v cap l) v := by
  induction cap generalizing l with
  | zero => simp [repeatExtent]
  | succ cap ih =>
    cases l with
    | nil => simp [repeatExtent]
    | cons b l =>
      unfold repeatExtent
      split
      · next h => simp [h, List.replicate_succ, ih l]
      · simp

/-- A repeat run that is shorter than the cap is followed by another value, or by nothing (R132). -/
theorem head_drop_repeatExtent (v : Byte) (cap : Nat) (l : List Byte) (h : repeatExtent v cap l < cap) :
    (l.drop (repeatExtent v cap l)).head? ≠ some v := by
  induction cap generalizing l with
  | zero => omega
  | succ cap ih =>
    cases l with
    | nil => simp [repeatExtent]
    | cons b l =>
      unfold repeatExtent at h ⊢
      split at h
      · next hb => rw [if_pos hb, List.drop_succ_cons]; exact ih l (by omega)
      · next hb => rw [if_neg hb]; simpa using hb

theorem literalExtent_le_cap (v : Byte) (cap : Nat) (l : List Byte) : literalExtent v cap l ≤ cap := by
  induction cap generalizing v l with
  | zero => simp [literalExtent]
  | succ cap ih =>
    cases l with
    | nil => simp [literalExtent]
    | cons b l =>
      unfold literalExtent
      have := ih b l
      split <;> omega

theorem literalExtent_le_length (v : Byte) (cap : Nat) (l : List Byte) : literalExtent v cap l ≤ l.length := by
  induction cap generalizing v l with
  | zero => simp [literalExtent]
  | succ cap ih =>
    cases l with
    | nil => simp [literalExtent]
    | cons b l =>
      unfold literalExtent
      have := ih b l
      rw [List.length_cons]
      split <;> omega

/-- Each element a literal run takes differs from the one just before it (41_rle.md R133). -/
theorem literalExtent_ne (v : Byte) (cap : Nat) (l : List Byte) (k : Nat) (hk : k < literalExtent v cap l) :
    (v :: l)[k + 1]? ≠ (v :: l)[k]? := by
  induction cap generalizing v l k with
  | zero => simp [literalExtent] at hk
  | succ cap ih =>
    cases l with
    | nil => simp [literalExtent] at hk
    | cons b l =>
      unfold literalExtent at hk
      split at hk
      · next hb =>
        cases k with
        | zero => simpa using hb
        | succ k => simpa using ih b l k (by omega)
      · omega

/-- A literal run that is shorter than the cap ends at the end of the input, or before an element equal to its last
(R133). -/
theorem literalExtent_stops (v : Byte) (cap : Nat) (l : List Byte) (h : literalExtent v cap l < cap)
    (hl : literalExtent v cap l < l.length) :
    (v :: l)[literalExtent v cap l + 1]? = (v :: l)[literalExtent v cap l]? := by
  induction cap generalizing v l with
  | zero => omega
  | succ cap ih =>
    cases l with
    | nil => simp at hl
    | cons b l =>
      unfold literalExtent at h hl ⊢
      split at h
      · next hb =>
        rw [if_pos hb] at hl ⊢
        simpa using ih b l (by omega) (by simpa using hl)
      · next hb =>
        rw [if_neg hb]
        simp only [ne_eq, Decidable.not_not] at hb
        simp [hb]

/-! ## The bounds never bind -/

/-- More fuel than elements changes nothing in the scan. -/
theorem scanRuns_fuel {n m : Nat} {s : List Byte} (hn : s.length ≤ n) (hm : s.length ≤ m) :
    scanRuns n s = scanRuns m s := by
  induction n generalizing m s with
  | zero =>
    obtain rfl : s = [] := List.length_eq_zero_iff.1 (by omega)
    cases m <;> rfl
  | succ n ih =>
    cases s with
    | nil => cases m <;> rfl
    | cons v rest =>
      cases m with
      | zero => simp at hm
      | succ m =>
        simp only [List.length_cons] at hn hm
        unfold scanRuns
        split
        · congr 1
          exact ih (by rw [List.length_drop]; omega) (by rw [List.length_drop]; omega)
        · congr 1
          exact ih (by rw [List.length_drop]; omega) (by rw [List.length_drop]; omega)

/-- Reading the first run of a stream, by the flag of its count byte. -/
theorem readRuns_cons (fuel : Nat) (h : Byte) (rest : List Byte) :
    readRuns (fuel + 1) (h :: rest) =
      if h.getLsbD 7 then
        match rest with
        | [] => none
        | v :: rest' => (readRuns fuel rest').map (.rep (h.extractLsb' 0 7).toNat v :: ·)
      else if rest.length < h.toNat then none
      else (readRuns fuel (rest.drop h.toNat)).map (.lit (rest.take h.toNat) :: ·) := by
  cases rest <;> simp only [readRuns]

/-- More fuel than bytes changes nothing in the read. -/
theorem readRuns_fuel {n m : Nat} {b : List Byte} (hn : b.length ≤ n) (hm : b.length ≤ m) :
    readRuns n b = readRuns m b := by
  induction n generalizing m b with
  | zero =>
    obtain rfl : b = [] := List.length_eq_zero_iff.1 (by omega)
    cases m <;> rfl
  | succ n ih =>
    cases b with
    | nil => cases m <;> rfl
    | cons h rest =>
      cases m with
      | zero => simp at hm
      | succ m =>
        simp only [List.length_cons] at hn hm
        rw [readRuns_cons, readRuns_cons]
        split
        · cases rest with
          | nil => rfl
          | cons v rest' =>
            simp only [List.length_cons] at hn hm
            simp only [ih (m := m) (b := rest') (by omega) (by omega)]
        · split
          · rfl
          · rw [ih (m := m) (by rw [List.length_drop]; omega) (by rw [List.length_drop]; omega)]

/-- Two equal elements begin a repeat run (R132). -/
theorem encodeRuns_repeat (v : Byte) (rest : List Byte) :
    encodeRuns (v :: v :: rest) =
      .rep (repeatExtent v 126 (v :: rest) + 1) v :: encodeRuns ((v :: rest).drop (repeatExtent v 126 (v :: rest))) := by
  have h : (v :: rest).head? = some v := rfl
  unfold encodeRuns
  rw [List.length_cons, scanRuns, if_pos h]
  congr 1
  exact scanRuns_fuel (by rw [List.length_drop]; exact Nat.sub_le _ _) (le_refl _)

/-- Otherwise a literal run begins (R133). -/
theorem encodeRuns_literal (v : Byte) (rest : List Byte) (h : rest.head? ≠ some v) :
    encodeRuns (v :: rest) =
      .lit (v :: rest.take (literalExtent v 126 rest)) :: encodeRuns (rest.drop (literalExtent v 126 rest)) := by
  unfold encodeRuns
  rw [List.length_cons, scanRuns, if_neg h]
  congr 1
  exact scanRuns_fuel (by rw [List.length_drop]; exact Nat.sub_le _ _) (le_refl _)

/-- A literal run that is not the whole input, and begins where no repeat run does, takes a second element (R134). -/
theorem literalExtent_pos (v : Byte) (rest : List Byte) (h : rest.head? ≠ some v) (hr : rest ≠ []) :
    1 ≤ literalExtent v 126 rest := by
  cases rest with
  | nil => exact absurd rfl hr
  | cons b rest =>
    unfold literalExtent
    rw [if_pos (by simpa using h)]
    omega

end Sys2Proof.Machine
end

