-- ==== Sys2Proof/Laws/Commands.lean ====
section
/-!
SUPPORT. One inversion lemma for each command body: exactly when it yields a commit set, and which. Later proofs cite
these and never unfold a body.
-/

namespace Sys2Proof.Machine

@[simp] theorem hdrSize_eq : Config.hdrSize = 32 := rfl
@[simp] theorem pixelStride_eq : Config.pixelStride = 4 := rfl
@[simp] theorem packType_eq : Config.packType = 0x0101#16 := rfl

/-- The stream RLE_ENC writes (41_rle.md R138). -/
abbrev encOut (r : Regs) (m : Memory) : List Byte := rleEncode (memRead m r.srcAddr.toNat r.srcLen.toNat)

theorem rleEncBody_ok {r : Regs} {m : Memory} {c : Commit} :
    rleEncBody r m = .ok c ↔
      checkRanges [srcRange r] [dstRange r] = none ∧ (encOut r m).length ≤ r.dstCap.toNat ∧
      c = { stores := [(r.dstAddr.toNat, encOut r m)], regWrites := [], result := (encOut r m).length } := by
  unfold rleEncBody encOut
  cases checkRanges [srcRange r] [dstRange r] with
  | some f => simp
  | none =>
    dsimp only
    split
    · next h => simp; omega
    · next h => simp only [Except.ok.injEq, true_and]; rw [and_iff_right (by omega)]; exact eq_comm

theorem rleDecBody_ok {r : Regs} {m : Memory} {c : Commit} :
    rleDecBody r m = .ok c ↔
      checkRanges [srcRange r] [dstRange r] = none ∧
      ∃ out, rleDecode (memRead m r.srcAddr.toNat r.srcLen.toNat) = some out ∧ out.length ≤ r.dstCap.toNat ∧
        c = { stores := [(r.dstAddr.toNat, out)], regWrites := [], result := out.length } := by
  unfold rleDecBody
  cases checkRanges [srcRange r] [dstRange r] with
  | some f => simp
  | none =>
    dsimp only
    cases rleDecode (memRead m r.srcAddr.toNat r.srcLen.toNat) with
    | none => simp
    | some out =>
      dsimp only
      split
      · next h =>
        simp only [reduceCtorEq, Option.some.injEq, true_and, false_iff]
        rintro ⟨o, rfl, h2, -⟩; omega
      · next h =>
        simp only [Except.ok.injEq, Option.some.injEq, true_and]
        constructor
        · rintro rfl; exact ⟨out, rfl, by omega, rfl⟩
        · rintro ⟨o, rfl, -, rfl⟩; rfl

theorem planeSplitBody_ok {r : Regs} {m : Memory} {c : Commit} :
    planeSplitBody r m = .ok c ↔
      ∃ cs, channels r.imgBpp = some cs ∧ checkRanges [imageSrcRange r] (cs.map (planeRange r)) = none ∧
        c = { stores := cs.map fun c =>
                ((planeReg r c).toNat, splitPlane m r.srcAddr.toNat r.imgW.toNat r.imgH.toNat c)
              regWrites := [(.hdrBpp, r.imgBpp.setWidth 32)]
              result := imgPixels r } := by
  unfold planeSplitBody
  cases channels r.imgBpp with
  | none => simp
  | some cs =>
    dsimp only
    cases h : checkRanges [imageSrcRange r] (cs.map (planeRange r)) with
    | some f => simp [h]
    | none => simp [h, eq_comm]

theorem planeMergeBody_ok {r : Regs} {m : Memory} {c : Commit} :
    planeMergeBody r m = .ok c ↔
      ∃ cs, channels r.hdrBpp = some cs ∧ checkRanges (cs.map (planeRange r)) [dstRange r] = none ∧
        4 * imgPixels r ≤ r.dstCap.toNat ∧
        c = { stores := [(r.dstAddr.toNat,
                mergeImage m (fun c => (planeReg r c).toNat) cs r.imgW.toNat r.imgH.toNat)]
              regWrites := []
              result := 4 * imgPixels r } := by
  unfold planeMergeBody
  cases channels r.hdrBpp with
  | none => simp
  | some cs =>
    dsimp only
    cases h : checkRanges (cs.map (planeRange r)) [dstRange r] with
    | some f => simp [h]
    | none =>
      dsimp only
      split
      · next hc => rw [pixelStride_eq] at hc; simp [h]; omega
      · next hc => rw [pixelStride_eq] at hc; simp [h, eq_comm]; omega

theorem hdrWriteBody_ok {r : Regs} {m : Memory} {c : Commit} :
    hdrWriteBody r m = .ok c ↔
      channels r.hdrBpp ≠ none ∧ checkRanges [] [dstRange r] = none ∧ 32 ≤ r.dstCap.toNat ∧
      c = { stores := [(r.dstAddr.toNat, hdrBytes r)], regWrites := [], result := 32 } := by
  unfold hdrWriteBody
  cases channels r.hdrBpp with
  | none => simp
  | some cs =>
    dsimp only
    cases h : checkRanges [] [dstRange r] with
    | some f => simp
    | none =>
      dsimp only
      split
      · next hc => rw [hdrSize_eq] at hc; simp; omega
      · next hc => rw [hdrSize_eq] at hc; simp [eq_comm]; omega

theorem grdPackBody_ok {r : Regs} {m : Memory} {c : Commit} :
    grdPackBody r m = .ok c ↔
      ∃ cs, channels r.hdrBpp = some cs ∧ checkRanges (cs.map (blkRange r)) [dstRange r] = none ∧
        packTotal r cs ≤ r.dstCap.toNat ∧
        c = { stores := [(r.dstAddr.toNat, packBytes r m cs)], regWrites := [], result := packTotal r cs } := by
  unfold grdPackBody
  cases channels r.hdrBpp with
  | none => simp
  | some cs =>
    dsimp only
    cases h : checkRanges (cs.map (blkRange r)) [dstRange r] with
    | some f => simp [h]
    | none =>
      dsimp only
      split
      · next hc => simp [h]; omega
      · next hc => simp [h, eq_comm]; omega

theorem hdrReadBody_ok {r : Regs} {m : Memory} {c : Commit} :
    hdrReadBody r m = .ok c ↔ hdrReadCheck r m = none ∧ c = hdrReadCommit r m := by
  unfold hdrReadBody
  cases hdrReadCheck r m with
  | some f => simp
  | none => simp [eq_comm]

/-- Every check of HDR_READ passes (43_container.md R184). -/
theorem hdrReadCheck_none {r : Regs} {m : Memory} :
    hdrReadCheck r m = none ↔
      checkRanges [srcRange r] [] = none ∧ 32 ≤ r.srcLen.toNat ∧ load16 m r.srcAddr.toNat = 0x0101#16 ∧
      (load16 m (r.srcAddr.toNat + 6) = 32#16 ∨
        (load16 m (r.srcAddr.toNat + 6) = 24#16 ∧ load32 m (r.srcAddr.toNat + 16) = 0#32)) ∧
      headerTotal m r.srcAddr.toNat ≤ r.srcLen.toNat := by
  unfold hdrReadCheck
  cases checkRanges [srcRange r] [] with
  | some f => simp
  | none =>
    dsimp only
    split
    · next h => rw [hdrSize_eq] at h; simp; omega
    · next h =>
      rw [hdrSize_eq] at h
      split
      · next h2 => rw [packType_eq] at h2; simp [h2]
      · next h2 =>
        split
        · next h3 =>
          rw [channels_none] at h3
          simp [h3.1, h3.2]
        · next h3 =>
          rw [channels_none, not_and_or, not_not, not_not] at h3
          split
          · next h4 => simp [h4.1, h4.2]
          · next h4 =>
            split
            · next h5 => simp; omega
            · next h5 =>
              simp only [true_and, true_iff]
              refine ⟨by omega, not_not.1 h2, ?_, by omega⟩
              rcases h3 with h3 | h3
              · exact .inr ⟨h3, by simpa [h3] using h4⟩
              · exact .inl h3

/-- The registers after HDR_READ's register writes (43_container.md R185). -/
theorem hdrReadCommit_regs (r q : Regs) (m : Memory) :
    applyRegWrites q (hdrReadCommit r m).regWrites = { q with
      hdrScrW := load16 m (r.srcAddr.toNat + 2), hdrScrH := load16 m (r.srcAddr.toNat + 4)
      hdrBpp := load16 m (r.srcAddr.toNat + 6), hdrLeft := load16 m (r.srcAddr.toNat + 8)
      hdrRight := load16 m (r.srcAddr.toNat + 10), hdrTop := load16 m (r.srcAddr.toNat + 12)
      hdrBottom := load16 m (r.srcAddr.toNat + 14), hdrALen := load32 m (r.srcAddr.toNat + 16)
      hdrRLen := load32 m (r.srcAddr.toNat + 20), hdrGLen := load32 m (r.srcAddr.toNat + 24)
      hdrBLen := load32 m (r.srcAddr.toNat + 28), blkA := BitVec.ofNat 32 (r.srcAddr.toNat + 32)
      blkR := BitVec.ofNat 32 (r.srcAddr.toNat + 32 + (load32 m (r.srcAddr.toNat + 16)).toNat)
      blkG := BitVec.ofNat 32 (r.srcAddr.toNat + 32 + (load32 m (r.srcAddr.toNat + 16)).toNat +
        (load32 m (r.srcAddr.toNat + 20)).toNat)
      blkB := BitVec.ofNat 32 (r.srcAddr.toNat + 32 + (load32 m (r.srcAddr.toNat + 16)).toNat +
        (load32 m (r.srcAddr.toNat + 20)).toNat + (load32 m (r.srcAddr.toNat + 24)).toNat) } := by
  simp only [hdrReadCommit, applyRegWrites_cons, applyRegWrites_nil, setReg, BitVec16_setWidth_roundtrip]

/-- What a header register write of HDR_READ or GEOM_DEFAULT leaves alone: every register but those in the list. -/
theorem applyRegWrites_other {ws : List (Reg × Word)} {n : Reg} (h : ∀ w ∈ ws, w.1 ≠ n) (r : Regs) :
    getReg (applyRegWrites r ws) n = getReg r n := by
  induction ws generalizing r with
  | nil => rfl
  | cons w ws ih =>
    rw [applyRegWrites_cons, ih (fun x hx => h x (List.mem_cons_of_mem _ hx)),
      getReg_setReg_of_ne _ _ _ _ (h w (List.mem_cons_self ..)).symm]

/-! ## Lengths of what is stored -/

theorem splitPlane_length (m : Memory) (base w h : Nat) (c : Channel) : (splitPlane m base w h c).length = w * h := by
  simp [splitPlane]

theorem mergeImage_length (m : Memory) (plane : Channel → Nat) (cs : List Channel) (w h : Nat) :
    (mergeImage m plane cs w h).length = 4 * (w * h) := by simp [mergeImage, Config.pixelStride]

theorem hdrBytes_length (r : Regs) : (hdrBytes r).length = 32 := rfl

theorem packBytes_length (r : Regs) (m : Memory) (cs : List Channel) : (packBytes r m cs).length = packTotal r cs := by
  rw [packBytes, packTotal, List.length_append, hdrBytes_length]
  congr 1
  induction cs with
  | nil => rfl
  | cons c cs ih => simp [ih]

/-! ## The header -/

/-- Where the bytes of HdrBytes stand in memory, each field reads as its register (43_container.md R180, R181). -/
theorem headerAt_of_memRead {m : Memory} {d : Nat} {r : Regs} (h : memRead m d 32 = hdrBytes r) :
    headerAt m d r (aLenOut r) := by
  have e : memRead m d 32 = memRead m d 2 ++ memRead m (d + 2) 2 ++ memRead m (d + 4) 2 ++ memRead m (d + 6) 2 ++
      memRead m (d + 8) 2 ++ memRead m (d + 10) 2 ++ memRead m (d + 12) 2 ++ memRead m (d + 14) 2 ++
      memRead m (d + 16) 4 ++ memRead m (d + 20) 4 ++ memRead m (d + 24) 4 ++ memRead m (d + 28) 4 := by
    simp only [← memRead_add]
  rw [e, hdrBytes] at h
  obtain ⟨h, h12⟩ := List.append_inj' h (by simp)
  obtain ⟨h, h11⟩ := List.append_inj' h (by simp)
  obtain ⟨h, h10⟩ := List.append_inj' h (by simp)
  obtain ⟨h, h9⟩ := List.append_inj' h (by simp)
  obtain ⟨h, h8⟩ := List.append_inj' h (by simp)
  obtain ⟨h, h7⟩ := List.append_inj' h (by simp)
  obtain ⟨h, h6⟩ := List.append_inj' h (by simp)
  obtain ⟨h, h5⟩ := List.append_inj' h (by simp)
  obtain ⟨h, h4⟩ := List.append_inj' h (by simp)
  obtain ⟨h, h3⟩ := List.append_inj' h (by simp)
  obtain ⟨h1, h2⟩ := List.append_inj' h (by simp)
  exact ⟨load16_of_memRead h1, load16_of_memRead h2, load16_of_memRead h3, load16_of_memRead h4, load16_of_memRead h5,
    load16_of_memRead h6, load16_of_memRead h7, load16_of_memRead h8, load32_of_memRead h9, load32_of_memRead h10,
    load32_of_memRead h11, load32_of_memRead h12⟩

end Sys2Proof.Machine
end

