-- ==== Sys2Proof/Laws/Decode.lean ====
section
/-!
SUPPORT. The fields of packed words, one lemma for each: what the encoder packs, the decoder's field readers give back.
-/

namespace Sys2Proof

@[simp] theorem cmdOp_packCommand (op : BitVec 8) : cmdOp (packCommand op) = op := by
  apply BitVec.eq_of_toNat_eq
  have := op.isLt
  simp only [cmdOp, packCommand, BitVec.extractLsb'_toNat, BitVec.toNat_append, Nat.shiftRight_zero]
  simp
  omega

@[simp] theorem cmdRsv_packCommand (op : BitVec 8) : cmdRsv (packCommand op) = 0#24 := by
  apply BitVec.eq_of_toNat_eq
  have := op.isLt
  simp only [cmdRsv, packCommand, BitVec.extractLsb'_toNat, BitVec.toNat_append, Nat.shiftRight_eq_div_pow]
  simp
  omega

theorem packTransaction_toNat (we : BitVec 1) (idx : RegIdx) (data : Word) :
    (packTransaction we idx data).toNat = we.toNat * 2 ^ 38 + idx.toNat * 2 ^ 32 + data.toNat := by
  have h1 := idx.isLt
  have h2 := data.isLt
  rw [packTransaction, BitVec.toNat_append, BitVec.toNat_append, ← Nat.shiftLeft_add_eq_or_of_lt idx.isLt,
    ← Nat.shiftLeft_add_eq_or_of_lt data.isLt, Nat.shiftLeft_eq, Nat.shiftLeft_eq]
  omega

@[simp] theorem hostWe_packTransaction (we : BitVec 1) (idx : RegIdx) (data : Word) :
    hostWe (packTransaction we idx data) = we := by
  apply BitVec.eq_of_toNat_eq
  have h0 := we.isLt
  have h1 := idx.isLt
  have h2 := data.isLt
  rw [hostWe, BitVec.extractLsb'_toNat, packTransaction_toNat, Nat.shiftRight_eq_div_pow]
  omega

@[simp] theorem hostIdx_packTransaction (we : BitVec 1) (idx : RegIdx) (data : Word) :
    hostIdx (packTransaction we idx data) = idx := by
  apply BitVec.eq_of_toNat_eq
  have h0 := we.isLt
  have h1 := idx.isLt
  have h2 := data.isLt
  rw [hostIdx, BitVec.extractLsb'_toNat, packTransaction_toNat, Nat.shiftRight_eq_div_pow]
  omega

@[simp] theorem hostData_packTransaction (we : BitVec 1) (idx : RegIdx) (data : Word) :
    hostData (packTransaction we idx data) = data := by
  apply BitVec.eq_of_toNat_eq
  have h0 := we.isLt
  have h1 := idx.isLt
  have h2 := data.isLt
  rw [hostData, BitVec.extractLsb'_toNat, packTransaction_toNat, Nat.shiftRight_zero]
  omega

/-- A transaction is the packing of its three fields. -/
theorem packTransaction_fields (t : Transaction) : packTransaction (hostWe t) (hostIdx t) (hostData t) = t := by
  apply BitVec.eq_of_toNat_eq
  have := t.isLt
  rw [packTransaction_toNat]
  simp only [hostWe, hostIdx, hostData, BitVec.extractLsb'_toNat, Nat.shiftRight_eq_div_pow]
  omega

/-- A command word is its OP and its RSV. -/
theorem command_fields (w : Word) : w.toNat = (cmdRsv w).toNat * 256 + (cmdOp w).toNat := by
  have := w.isLt
  simp only [cmdRsv, cmdOp, BitVec.extractLsb'_toNat, Nat.shiftRight_eq_div_pow]
  omega

/-- The opcode map gives the eight commands and nothing else (30_encoding.md R94). -/
theorem opcodeInstr_cases {op : BitVec 8} {i : Instr} (h : opcodeInstr op = some i) :
    (op = 0x01#8 ∧ i = .rleEnc) ∨ (op = 0x02#8 ∧ i = .rleDec) ∨ (op = 0x03#8 ∧ i = .planeSplit) ∨
    (op = 0x04#8 ∧ i = .planeMerge) ∨ (op = 0x05#8 ∧ i = .hdrWrite) ∨ (op = 0x06#8 ∧ i = .hdrRead) ∨
    (op = 0x07#8 ∧ i = .grdPack) ∨ (op = 0x08#8 ∧ i = .geomDefault) := by
  unfold opcodeInstr at h
  split at h <;> simp_all [BitVec.toNat_eq]

/-- The decoder on a command word. -/
theorem decode_cmd32_ok {w : Word} {i : Instr} : decode (.cmd32 w) = .ok i ↔ decodeCommand w = some i := by
  simp only [decode]
  cases decodeCommand w <;> simp

theorem decode_cmd32_error {w : Word} : decode (.cmd32 w) = .error (.illegalCommand w) ↔ decodeCommand w = none := by
  simp only [decode]
  cases decodeCommand w <;> simp

end Sys2Proof
end

