-- ==== Sys2Proof/Laws/PerInstr.lean ====
section
/-!
SUPPORT. Statements for all instructions, made one instruction at a time.

Family MatchesTable: the encoding of an instruction has the bits its row of spec/opcode_table.json fixes (match under
mask), and fits the format's width.
-/

namespace Sys2Proof.Laws.MatchesTable

/-- The columns "match" and "mask" of an instruction's row in spec/opcode_table.json. -/
def row : Instr → Nat × Nat
  | .rleEnc => (0x00000001, 0xFFFFFFFF)
  | .rleDec => (0x00000002, 0xFFFFFFFF)
  | .planeSplit => (0x00000003, 0xFFFFFFFF)
  | .planeMerge => (0x00000004, 0xFFFFFFFF)
  | .hdrWrite => (0x00000005, 0xFFFFFFFF)
  | .hdrRead => (0x00000006, 0xFFFFFFFF)
  | .grdPack => (0x00000007, 0xFFFFFFFF)
  | .geomDefault => (0x00000008, 0xFFFFFFFF)
  | .regWrite _ _ => (0x4000000000, 0x4000000000)
  | .regRead _ => (0x0000000000, 0x4000000000)

/-- An instruction word as the number the table gives it. -/
def number : InstrWord → Nat
  | .cmd32 w => w.toNat
  | .host39 t => t.toNat

/-- The encoding of i meets the match of its row under the row's mask. -/
def Statement (i : Instr) : Prop := number (encode i) &&& (row i).2 = (row i).1

theorem rleEnc : Statement .rleEnc := by unfold Statement; decide
theorem rleDec : Statement .rleDec := by unfold Statement; decide
theorem planeSplit : Statement .planeSplit := by unfold Statement; decide
theorem planeMerge : Statement .planeMerge := by unfold Statement; decide
theorem hdrWrite : Statement .hdrWrite := by unfold Statement; decide
theorem hdrRead : Statement .hdrRead := by unfold Statement; decide
theorem grdPack : Statement .grdPack := by unfold Statement; decide
theorem geomDefault : Statement .geomDefault := by unfold Statement; decide

/-- Masking with bit 38 leaves WE in its place. -/
theorem we_of_packed (we : BitVec 1) (idx : RegIdx) (data : Word) :
    (packTransaction we idx data).toNat &&& 0x4000000000 = we.toNat * 2 ^ 38 := by
  have h1 := idx.isLt
  have h2 := data.isLt
  rw [packTransaction_toNat, show (0x4000000000 : Nat) = 2 ^ 38 by rfl, Nat.and_two_pow, Nat.testBit,
    Nat.shiftRight_eq_div_pow]
  rcases BitVec.eq_zero_or_eq_one we with h | h <;> subst h <;> simp <;> omega

theorem regWrite (idx : RegIdx) (data : Word) : Statement (.regWrite idx data) := we_of_packed 1#1 idx data
theorem regRead (idx : RegIdx) : Statement (.regRead idx) := we_of_packed 0#1 idx 0#32

end Sys2Proof.Laws.MatchesTable
end

