-- ==== Sys2Proof/Tests/Slice0.lean ====
section
/-!
SUPPORT. The model's own tests. Every expected value is a vector or an example of spec/95_test_vectors.md (V<n>, E<n>)
or of the rule named, never the model's own answer. Then a witness for each statement that has hypotheses: a concrete
state that meets them.
-/

namespace Sys2Proof.Tests

open Sys2Proof.Machine

/-! ## Small states -/

/-- Registers from reset, and a memory that holds the given bytes. -/
def st (r : Regs) (cells : List (Nat × List Byte)) : State :=
  { State.reset with regs := r, mem := applyStores [] cells }

/-- The state an instruction leaves. -/
def after (o : Host.Outcome State Fault Refusal) : State :=
  match o with
  | .next s => s
  | .fault _ => State.reset
  | .refused _ => State.reset

/-- The state step leaves. -/
def next (s : State) : State := after (step s)

/-- The source and destination registers of one command. -/
def srcDst (a n d cap : Word) : Regs := { Regs.reset with srcAddr := a, srcLen := n, dstAddr := d, dstCap := cap }

/-- The STATUS word a host would read. -/
def statusOf (s : State) : Word := readIndex s.regs 0x01#6

/-! ## WellFormed: ill-formed terms are refused -/

theorem test_wf_legal_command :
    legalCommand 0x00000001#32 = true ∧ legalCommand 0x00000008#32 = true ∧ legalCommand 0x00000000#32 = false ∧
    legalCommand 0x00000009#32 = false ∧ legalCommand 0x00000101#32 = false ∧ legalCommand 0x80000001#32 = false := by
  decide

theorem test_wf_index : indexFits 0x3F = true ∧ indexFits 0x40 = false := by decide

theorem test_wf_data : dataFits 0xFFFFFFFF = true ∧ dataFits 0x100000000 = false := by decide

theorem test_wf_table_word :
    tableWordFits 32 0x08 = true ∧ tableWordFits 32 0x100000000 = false ∧ tableWordFits 39 0x7FFFFFFFFF = true ∧
    tableWordFits 40 0x8000000000 = false ∧ tableWordFits 16 0 = false := by decide

/-! ## Decode: words written out from 30_encoding.md R91, R92, R94 -/

theorem test_decode_commands :
    decode (.cmd32 0b00000000000000000000000000000001#32) = .ok .rleEnc ∧
    decode (.cmd32 0b00000000000000000000000000000010#32) = .ok .rleDec ∧
    decode (.cmd32 0b00000000000000000000000000000011#32) = .ok .planeSplit ∧
    decode (.cmd32 0b00000000000000000000000000000100#32) = .ok .planeMerge ∧
    decode (.cmd32 0b00000000000000000000000000000101#32) = .ok .hdrWrite ∧
    decode (.cmd32 0b00000000000000000000000000000110#32) = .ok .hdrRead ∧
    decode (.cmd32 0b00000000000000000000000000000111#32) = .ok .grdPack ∧
    decode (.cmd32 0b00000000000000000000000000001000#32) = .ok .geomDefault := by decide

/-- V118 to V122. -/
theorem test_decode_illegal :
    decode (.cmd32 0x00000000#32) = .error (.illegalCommand 0x00000000#32) ∧
    decode (.cmd32 0x00000009#32) = .error (.illegalCommand 0x00000009#32) ∧
    decode (.cmd32 0x000000FF#32) = .error (.illegalCommand 0x000000FF#32) ∧
    decode (.cmd32 0x00000101#32) = .error (.illegalCommand 0x00000101#32) ∧
    decode (.cmd32 0x80000001#32) = .error (.illegalCommand 0x80000001#32) := by decide

/-- V110, V111, V114, V117: WE, IDX and DATA bit by bit. -/
theorem test_decode_transactions :
    decode (.host39 0b100100000000000000000010010001101000101#39) = .ok (.regWrite 0x08#6 0x00012345#32) ∧
    decode (.host39 0b001011000000000000000000000000000000000#39) = .ok (.regRead 0x16#6) ∧
    decode (.host39 0x60DEADBEEF#39) = .ok (.regWrite 0x20#6 0xDEADBEEF#32) ∧
    decode (.host39 0x41FFFFFFFF#39) = .ok (.regWrite 0x01#6 0xFFFFFFFF#32) ∧
    decode (.host39 0x3F12345678#39) = .ok (.regRead 0x3F#6) := by decide

/-- The hexadecimal transactions of P1 and P2. -/
theorem test_encode_transactions :
    encode (.regWrite 0x04#6 0x00000100#32) = .host39 0x4400000100#39 ∧
    encode (.regWrite 0x1E#6 0x00000003#32) = .host39 0x5E00000003#39 ∧
    encode (.regRead 0x02#6) = .host39 0x0200000000#39 ∧
    deliver (encode .grdPack) = 0x4000000007#39 := by decide

theorem test_decode_table_words :
    decodeTableWord 32 0x00000006 = some .hdrRead ∧ decodeTableWord 32 0x00000009 = none ∧
    decodeTableWord 40 0x4800012345 = some (.regWrite 0x08#6 0x00012345#32) ∧
    decodeTableWord 39 0x0200000000 = some (.regRead 0x02#6) := by decide

/-! ## One step from reset -/

/-- The first instruction after reset is the placed one: GEOM_DEFAULT writes LAST_CMD (40_host_interface.md R112), and
a read of HDR_PACKTYPE returns 0x00000101 (V112). -/
theorem test_first_instruction :
    (next (State.reset.withFetchWord 32 0x00000008)).regs.lastCmd = 0x00000008#32 ∧
    (next (State.reset.withFetchWord 40 0x1300000000)).returned = [0x00000101#32] := by decide

/-- V130: a reset after work leaves the registers at reset and the memory as it was. -/
theorem test_reset_event :
    (next { st (srcDst 1 2 3 4) [(0x10, [0x55#8])] with pending := [.reset] }).regs = Regs.reset ∧
    readByte (next { st (srcDst 1 2 3 4) [(0x10, [0x55#8])] with pending := [.reset] }).mem 0x10 = 0x55#8 := by decide

/-! ## Host transactions -/

/-- V110. -/
theorem test_reg_write_16_bits : readIndex (after (exec (.regWrite 0x08#6 0x00012345#32) State.reset)).regs 0x08#6 =
    0x00002345#32 := by decide

/-- V123 and V115: geom.default after a fault; CMD reads 0. -/
theorem test_reg_write_cmd :
    statusOf (after (exec (.regWrite 0x00#6 0x00000008#32) (after (exec (.regWrite 0x00#6 0#32) State.reset)))) =
      0x00000002#32 ∧
    (after (exec (.regRead 0x00#6) (after (exec (.regWrite 0x00#6 9#32) State.reset)))).returned = [0#32] := by decide

/-- V116, V117. -/
theorem test_status_write :
    statusOf (after (exec (.regWrite 0x01#6 0x00000001#32) (State.reset.withStatus ⟨true, true, 0x04#8⟩))) =
      0x00000403#32 ∧
    statusOf (after (exec (.regWrite 0x01#6 0xFFFFFFFF#32) (State.reset.withStatus ⟨true, true, 0x04#8⟩))) =
      0x00000401#32 := by decide

/-- V111, V112, V113, V114. -/
theorem test_reg_read_after_ignored_write :
    readIndex (after (exec (.regWrite 0x16#6 32#32) State.reset)).regs 0x16#6 = 0#32 ∧
    readIndex (after (exec (.regWrite 0x13#6 0#32) State.reset)).regs 0x13#6 = 0x00000101#32 ∧
    readIndex (after (exec (.regWrite 0x02#6 9#32) State.reset)).regs 0x02#6 = 0#32 ∧
    (after (exec (.regRead 0x20#6) (after (exec (.regWrite 0x20#6 0xDEADBEEF#32) State.reset)))).returned = [0#32] := by
  decide

/-! ## ChannelRLE -/

/-- V1, V3, V7, V8, V9, V11, V14, V15. -/
theorem test_encode_small :
    rleEncode [] = [] ∧ rleEncode [7, 7] = [0x82, 7] ∧ rleEncode [1, 2, 2, 2] = [2, 1, 2, 0x82, 2] ∧
    rleEncode [1, 2, 2, 3] = [2, 1, 2, 2, 2, 3] ∧ rleEncode [1, 2, 2, 3, 3] = [2, 1, 2, 2, 2, 3, 1, 3] ∧
    rleEncode [1, 2, 1, 2] = [4, 1, 2, 1, 2] ∧ rleEncode [1, 2, 3, 3, 3, 3] = [3, 1, 2, 3, 0x83, 3] ∧
    rleEncode [0, 0x80, 0x80, 0x81] = [2, 0, 0x80, 2, 0x80, 0x81] := by decide

/-- V19, V20, V21: the cap of 127. -/
theorem test_encode_cap :
    rleEncode (List.replicate 127 0xAA#8) = [0xFF, 0xAA] ∧
    rleEncode (List.replicate 128 0xAA#8) = [0xFF, 0xAA, 0x01, 0xAA] ∧
    rleEncode (List.replicate 129 0xAA#8) = [0xFF, 0xAA, 0x82, 0xAA] := by decide +kernel

/-- V31 to V40. -/
theorem test_decode_small :
    rleDecode [0x84, 5, 1, 9] = some [5, 5, 5, 5, 9] ∧ rleDecode [2, 5, 5] = some [5, 5] ∧
    rleDecode [0x81, 9] = some [9] ∧ rleDecode [0] = some [] ∧ rleDecode [0x80, 0x55] = some [] ∧
    rleDecode [0x83, 7, 2, 1] = none ∧ rleDecode [0x85] = none ∧ rleDecode [0x80] = none ∧
    rleDecode [3, 1, 2] = none ∧ rleDecode [0, 0x81, 0x42, 0x80] = none := by decide

/-- The setup of V50 to V52 and V56: the source bytes of E1 at 0x110. -/
def encSt (d cap : Word) : State := st (srcDst 0x110 5 d cap) [(0x110, [5, 5, 5, 5, 9])]

/-- V50. -/
theorem test_rle_enc : memRead (after (exec .rleEnc (encSt 0x200 4))).mem 0x200 5 = [0x84, 5, 1, 9, 0] ∧
    (after (exec .rleEnc (encSt 0x200 4))).regs.resultLen = 4#32 := by decide

/-- V51, V52, V53. -/
theorem test_rle_enc_faults :
    statusOf (after (exec .rleEnc (encSt 0x200 3))) = 0x00001303#32 ∧
    statusOf (after (exec .rleEnc (encSt 0x112 8))) = 0x00001203#32 ∧
    statusOf (after (exec .rleEnc (st (srcDst 0xFFFFFFFE 3 0x200 8) []))) = 0x00001103#32 := by decide

/-- The setup of V59 and V60. -/
def decSt (cap : Word) : State := st (srcDst 0x200 4 0x300 cap) [(0x200, [0x84, 5, 1, 9])]

/-- V60. -/
theorem test_rle_dec : memRead (after (exec .rleDec (decSt 5))).mem 0x300 6 = [5, 5, 5, 5, 9, 0] ∧
    (after (exec .rleDec (decSt 5))).regs.resultLen = 5#32 := by decide

/-- The setup of V57 and V58. -/
def badSt (cap : Word) : State := st (srcDst 0x100 4 0x200 cap) [(0x100, [0x83, 7, 2, 1])]

/-- V57, V58, V59. -/
theorem test_rle_dec_faults :
    statusOf (after (exec .rleDec (badSt 16))) = 0x00000403#32 ∧
    statusOf (after (exec .rleDec (badSt 0))) = 0x00000403#32 ∧
    statusOf (after (exec .rleDec (decSt 4))) = 0x00001303#32 := by decide

/-! ## PixelPlanarizer -/

/-- The registers of section 3: W = H = 2, the image at 0x1000, the planes from `a`, 0x1110, 0x1120, 0x1130. -/
def planarRegs (imgBpp hdrBpp : Half) (a cap : Word) : Regs :=
  { Regs.reset with
    srcAddr := 0x1000, dstAddr := 0x2000, dstCap := cap, imgW := 2, imgH := 2, imgBpp := imgBpp, hdrBpp := hdrBpp
    planeA := a, planeR := 0x1110, planeG := 0x1120, planeB := 0x1130 }

/-- The image of V70. -/
def image70 : Nat × List Byte :=
  (0x1000, [0x10, 0x11, 0x12, 0x13, 0x20, 0x21, 0x22, 0x23, 0x30, 0x31, 0x32, 0x33, 0x40, 0x41, 0x42, 0x43])

/-- The planes of V70. -/
def planes70 : List (Nat × List Byte) :=
  [(0x1100, [0x30, 0x40, 0x10, 0x20]), (0x1110, [0x31, 0x41, 0x11, 0x21]), (0x1120, [0x32, 0x42, 0x12, 0x22]),
   (0x1130, [0x33, 0x43, 0x13, 0x23])]

/-- V70 before the split, and the state of V78: at depth 24 the A plane is where the source is. -/
def splitSt (bpp : Half) (a : Word) : State := st (planarRegs bpp 0 a 16) [image70]

/-- V71, V73, V80: the planes of V70, to be merged. -/
def mergeSt (bpp : Half) (cap : Word) : State := st (planarRegs 0 bpp 0x1100 cap) planes70

/-- V70. -/
theorem test_plane_split :
    (planes70.all fun p => memRead (after (exec .planeSplit (splitSt 32 0x1100))).mem p.1 4 = p.2) = true ∧
    (after (exec .planeSplit (splitSt 32 0x1100))).regs.hdrBpp = 32#16 ∧
    (after (exec .planeSplit (splitSt 32 0x1100))).regs.resultLen = 4#32 := by decide

/-- V76, V77, V78. -/
theorem test_plane_split_faults :
    (after (exec .planeSplit (splitSt 16 0x1100))).regs.status.fcode = 0x01#8 ∧
    (after (exec .planeSplit (splitSt 32 0x1112))).regs.status.fcode = 0x12#8 ∧
    (after (exec .planeSplit (splitSt 24 0x1000))).regs.status.fault = false := by decide

/-- V71; and V73 with V72's layout: at depth 24 offset 0 holds FILL24. -/
theorem test_plane_merge :
    memRead (after (exec .planeMerge (mergeSt 32 16))).mem 0x2000 16 = image70.2 ∧
    readByte (after (exec .planeMerge (mergeSt 32 16))).mem 0x2010 = 0x00#8 ∧
    readByte (after (exec .planeMerge (mergeSt 24 16))).mem 0x2001 = 0x11#8 := by
  refine ⟨by decide, by decide, ?_⟩
  show readByte (memWrite (mergeSt 24 16).mem 0x2000 (mergeImage (mergeSt 24 16).mem _ _ 2 2)) (0x2000 + 1) = _
  rw [readByte_memWrite_inside (by decide) (by simp [mergeImage, Config.pixelStride]) (by decide)]
  rfl

/-- V79, V80. -/
theorem test_plane_merge_faults :
    (after (exec .planeMerge State.reset)).regs.status.fcode = 0x01#8 ∧
    (after (exec .planeMerge (mergeSt 32 15))).regs.status.fcode = 0x13#8 := by decide

/-! ## GrdContainer -/

/-- The header registers of V90, with this depth and A length; blocks at 0x100, 0x110, 0x120, 0x130. -/
def hdrRegs (bpp : Half) (aLen d cap : Word) : Regs :=
  { Regs.reset with
    dstAddr := d, dstCap := cap, hdrScrW := 800, hdrScrH := 600, hdrBpp := bpp, hdrRight := 2, hdrBottom := 1
    hdrALen := aLen, hdrRLen := 3, hdrGLen := 2, hdrBLen := 3
    blkA := 0x100, blkR := 0x110, blkG := 0x120, blkB := 0x130 }

/-- The bytes of V90. -/
def bytes90 : List Byte :=
  [0x01, 0x01, 0x20, 0x03, 0x58, 0x02, 0x20, 0x00, 0x00, 0x00, 0x02, 0x00, 0x00, 0x00, 0x01, 0x00, 0x02, 0x00, 0x00, 0x00,
   0x03, 0x00, 0x00, 0x00, 0x02, 0x00, 0x00, 0x00, 0x03, 0x00, 0x00, 0x00]

/-- The bytes of V91. -/
def bytes91 : List Byte :=
  [0x01, 0x01, 0x20, 0x03, 0x58, 0x02, 0x18, 0x00, 0x00, 0x00, 0x02, 0x00, 0x00, 0x00, 0x01, 0x00, 0x00, 0x00, 0x00, 0x00,
   0x03, 0x00, 0x00, 0x00, 0x02, 0x00, 0x00, 0x00, 0x03, 0x00, 0x00, 0x00]

/-- The state of V90 to V92. -/
def hdrSt (bpp : Half) (aLen d cap : Word) : State := st (hdrRegs bpp aLen d cap) []

/-- V90, V91. -/
theorem test_hdr_write :
    memRead (after (exec .hdrWrite (hdrSt 32 2 0x200 32))).mem 0x200 32 = bytes90 ∧
    memRead (after (exec .hdrWrite (hdrSt 24 5 0x200 32))).mem 0x200 32 = bytes91 := by decide

/-- V92. -/
theorem test_hdr_write_faults :
    (after (exec .hdrWrite (hdrSt 0 2 0x200 32))).regs.status.fcode = 0x01#8 ∧
    (after (exec .hdrWrite (hdrSt 32 2 0x200 31))).regs.status.fcode = 0x13#8 ∧
    (after (exec .hdrWrite (hdrSt 32 2 0xFFFFFFF0 32))).regs.status.fcode = 0x11#8 := by decide

/-- The blocks of V93. -/
def blocks93 : List (Nat × List Byte) :=
  [(0x100, [0x82, 0xFF]), (0x110, [0x02, 0x10, 0x11]), (0x120, [0x82, 0x20]), (0x130, [0x02, 0x30, 0x31])]

/-- The state of V93 to V95. -/
def packSt (bpp : Half) (aLen d cap : Word) : State := st (hdrRegs bpp aLen d cap) blocks93

/-- V93, V94. -/
theorem test_grd_pack :
    memRead (after (exec .grdPack (packSt 32 2 0x200 64))).mem 0x200 42 =
      bytes90 ++ [0x82, 0xFF, 0x02, 0x10, 0x11, 0x82, 0x20, 0x02, 0x30, 0x31] ∧
    memRead (after (exec .grdPack (packSt 24 100 0x200 64))).mem 0x200 40 =
      bytes91 ++ [0x02, 0x10, 0x11, 0x82, 0x20, 0x02, 0x30, 0x31] ∧
    (after (exec .grdPack (packSt 24 100 0x200 64))).regs.resultLen = 40#32 := by decide

/-- V95. -/
theorem test_grd_pack_faults :
    (after (exec .grdPack (packSt 32 2 0xF0 64))).regs.status.fcode = 0x12#8 ∧
    (after (exec .grdPack (packSt 32 2 0x200 41))).regs.status.fcode = 0x13#8 ∧
    (after (exec .grdPack (packSt 0 2 0x200 64))).regs.status.fcode = 0x01#8 := by decide

/-- A container at an address, with this many bytes of it given to HDR_READ. -/
def readSt (a n : Word) (bs : List Byte) : State := st (srcDst a n 0 0) [(a.toNat, bs)]

/-- The container of V93. -/
def container93 : List Byte := bytes90 ++ [0x82, 0xFF, 0x02, 0x10, 0x11, 0x82, 0x20, 0x02, 0x30, 0x31]

/-- A header of V99: this pack type's two bytes, this depth, this aLen byte, the other lengths this byte. -/
def header99 (p q bpp aLen len : Byte) : List Byte :=
  [p, q, 0, 0, 0, 0, bpp, 0, 0, 0, 0, 0, 0, 0, 0, 0, aLen, 0, 0, 0, len, len, len, len, len, len, len, len, len, len, len, len]

/-- V96 and V97: trailing bytes are ignored. -/
theorem test_hdr_read :
    (after (exec .hdrRead (readSt 0x3000 42 container93))).regs =
      { Regs.reset with
        srcAddr := 0x3000, srcLen := 42, lastCmd := 6, resultLen := 42, hdrScrW := 800, hdrScrH := 600, hdrBpp := 32
        hdrRight := 2, hdrBottom := 1, hdrALen := 2, hdrRLen := 3, hdrGLen := 2, hdrBLen := 3
        blkA := 0x3020, blkR := 0x3022, blkG := 0x3025, blkB := 0x3027 } ∧
    (after (exec .hdrRead (readSt 0x3000 43 (container93 ++ [0xEE])))).regs.resultLen = 42#32 := by decide

/-- V100 and V101. -/
theorem test_hdr_read_edges :
    (after (exec .hdrRead (readSt 0xFFFFFFE0 32 (header99 1 1 32 0 0)))).regs.blkB = 0#32 ∧
    (after (exec .hdrRead (readSt 0xFFFFFFE1 32 []))).regs.status.fcode = 0x11#8 ∧
    (after (exec .hdrRead (readSt 0x3000 31 container93))).regs.status.fcode = 0x03#8 ∧
    (after (exec .hdrRead (readSt 0x3000 41 container93))).regs.status.fcode = 0x03#8 ∧
    (after (exec .hdrRead (readSt 0x3000 32 (header99 0 1 32 0 0)))).regs.status.fcode = 0x02#8 ∧
    (after (exec .hdrRead (readSt 0x3000 32 (header99 1 1 16 0 0)))).regs.status.fcode = 0x01#8 ∧
    (after (exec .hdrRead (readSt 0x3000 34 (header99 1 1 24 2 0)))).regs.status.fcode = 0x14#8 ∧
    (after (exec .hdrRead (readSt 0x3000 32 (header99 1 1 32 0 0xFF)))).regs.status.fcode = 0x03#8 := by decide

/-- V102. -/
theorem test_geom_default :
    (after (exec .geomDefault (st { hdrRegs 32 2 0 0 with imgW := 2, imgH := 1 } []))).regs =
      { hdrRegs 32 2 0 0 with imgW := 2, imgH := 1, hdrScrW := 0, hdrScrH := 0, lastCmd := 8 } := by decide

/-! ## Host programs (30_encoding.md R97, R98; the programs P1 and P2) -/

theorem test_assemble_pseudo : assembleLine "enc 0x100,5,0x200,16" =
    some [.regWrite 4 0x100, .regWrite 5 5, .regWrite 6 0x200, .regWrite 7 16, .regWrite 0 1] := by decide +kernel

theorem test_assemble_lines :
    assembleLine "wr HDR_SCRW, 800 ; sidecar fields" = some [.regWrite 0x14 800] ∧
    assembleLine "rd r0x1F" = some [.regRead 0x1F] ∧ assembleLine "plane.split" = some [.regWrite 0 3] ∧
    assembleLine "wr r0x40, 1" = none := by decide +kernel

/-! ## Witnesses: states that meet the hypotheses of each statement -/

theorem witness_StepRunsDecodedTransaction :
    (State.reset.withFetchWord 40 0x4800012345).pending = .transaction 0x4800012345#39 :: [] ∧
    decode (.host39 0x4800012345#39) = .ok (.regWrite 0x08#6 0x00012345#32) := by decide

theorem witness_FetchedTableWordRuns :
    decodeTableWord 32 1 = some .rleEnc ∧ decodeTableWord 40 0x3FFFFFFFFF = some (.regRead 0x3F#6) ∧
    decodeTableWord 39 0x7FFFFFFFFF = some (.regWrite 0x3F#6 0xFFFFFFFF#32) := by decide

theorem witness_ResetInputResetsRegistersOnly :
    ({ encSt 0x200 4 with pending := [.reset] } : State).pending = .reset :: [] := rfl

theorem witness_IdleAndHostWriteSteps :
    State.reset.pending = [] ∧ Memory.wf (encSt 0x200 4).mem = true ∧
    ({ encSt 0x200 4 with pending := [.memWrite 0xFFFFFFFF#32 0x00#8] } : State).pending =
      .memWrite 0xFFFFFFFF#32 0x00#8 :: [] := by decide

/-- The invariant holds in a state that is not reset: memory listed, a fault recorded, HDR_BPP = 24. -/
theorem witness_StepKeepsInvariant :
    ({ packSt 24 100 0x200 64 with pending := [.transaction 0x4000000007#39] }.withStatus ⟨true, true, 0x14#8⟩).Inv :=
  ⟨by decide, ⟨by decide, by decide⟩, .inr (.inl rfl)⟩

theorem witness_register_indices :
    0x1F ≤ (0x1F#6).toNat ∧ 0x1F ≤ (0x3F#6).toNat ∧
    0x08#6 ∈ [0x08#6, 0x09#6, 0x0A#6, 0x14#6, 0x15#6, 0x17#6, 0x18#6, 0x19#6, 0x1A#6] ∧
    0x1E#6 ∈ [0x04#6, 0x05#6, 0x06#6, 0x07#6, 0x0B#6, 0x0C#6, 0x0D#6, 0x0E#6, 0x0F#6, 0x10#6, 0x11#6, 0x12#6,
      0x1B#6, 0x1C#6, 0x1D#6, 0x1E#6] ∧
    0x16#6 ∈ [0x02#6, 0x03#6, 0x13#6, 0x16#6] ∧ 0x01#6 ≠ 0x00#6 := by decide

theorem witness_StatusWordFields : (2 ≤ 2 ∧ 2 < 8) ∧ (2 ≤ 7 ∧ 7 < 8) ∧ 16 ≤ 16 ∧ 16 ≤ 31 := by decide

theorem witness_LegalCommandWords : legalCommand 0x00000000#32 = false ∧ legalCommand 0x00000009#32 = false := by decide

theorem witness_CmdWriteRunsItsCommand :
    decode (.cmd32 0x00000001#32) = .ok .rleEnc ∧ decode (.cmd32 0x00000008#32) = .ok .geomDefault ∧
    legalCommand 0x00000100#32 = false := by decide

/-- A command that faults and one that succeeds; the second runs after the first. -/
theorem witness_CommandEnds :
    encode .rleEnc = .cmd32 0x00000001#32 ∧
    (after (exec .rleEnc (encSt 0x200 3))).regs.status.fault = true ∧
    (after (exec .rleEnc (encSt 0x200 4))).regs.status.fault = false := by decide

theorem witness_NoCommandReadsAFlag :
    encode .rleEnc = .cmd32 0x00000001#32 ∧ exec .rleEnc (encSt 0x200 4) = .next (after (exec .rleEnc (encSt 0x200 4))) :=
  ⟨by decide, rfl⟩

theorem witness_ContinuationAfterFault :
    encode .rleEnc = .cmd32 0x00000001#32 ∧ encode .geomDefault = .cmd32 0x00000008#32 ∧
    exec .rleEnc (encSt 0x200 3) = .next (after (exec .rleEnc (encSt 0x200 3))) ∧
    (after (exec .rleEnc (encSt 0x200 3))).regs.status.fault = true ∧
    exec .geomDefault (after (exec .rleEnc (encSt 0x200 3))) =
      .next (after (exec .geomDefault (after (exec .rleEnc (encSt 0x200 3))))) ∧
    (after (exec .geomDefault (after (exec .rleEnc (encSt 0x200 3))))).regs.status.fault = false :=
  ⟨by decide, by decide, rfl, by decide, rfl, by decide⟩

theorem witness_CommandRegisterFrame :
    encode .planeSplit = .cmd32 0x00000003#32 ∧ Instr.planeSplit ≠ .hdrRead ∧ Instr.planeSplit ≠ .geomDefault ∧
    encode .grdPack = .cmd32 0x00000007#32 ∧ Instr.grdPack ≠ .planeSplit ∧
    (after (exec .planeSplit (splitSt 32 0x1100))).regs.status.fault = false := by decide

theorem witness_StoresStayInDestination :
    Instr.grdPack ∈ [Instr.rleEnc, .rleDec, .planeMerge, .hdrWrite, .grdPack] ∧
    Memory.wf (packSt 32 2 0x200 42).mem = true ∧
    exec .grdPack (packSt 32 2 0x200 42) = .next (after (exec .grdPack (packSt 32 2 0x200 42))) :=
  ⟨by decide, by decide, rfl⟩

theorem witness_NonStoringInstructionsKeepMemory :
    Instr.hdrRead ∈ [Instr.hdrRead, .geomDefault] ∧
    exec .hdrRead (readSt 0x3000 42 container93) = .next (after (exec .hdrRead (readSt 0x3000 42 container93))) ∧
    exec (.regWrite 0x01#6 2#32) State.reset = .next (after (exec (.regWrite 0x01#6 2#32) State.reset)) :=
  ⟨by decide, rfl, rfl⟩

theorem witness_HdrBppWrittenOnlyBySplitAndRead :
    (after (exec .planeSplit (splitSt 24 0x1100))).regs.hdrBpp ≠ (splitSt 24 0x1100).regs.hdrBpp ∧
    (after (exec (.regWrite 0x00#6 0x00000003#32) (splitSt 32 0x1100))).regs.hdrBpp ≠ 0#16 := by decide

theorem witness_RangeOverlapMeansSharedAddress :
    (Range.mk 0x112 8).overlaps ⟨0x110, 5⟩ = true ∧ (Range.mk 0x115 8).overlaps ⟨0x110, 5⟩ = false ∧
    (Range.mk 0x112 0).overlaps ⟨0x110, 5⟩ = false ∧ (Range.mk 0xFFFFFFFF 1).inRange = true ∧
    (Range.mk 0xFFFFFFFF 2).inRange = false ∧ (Range.mk 0xFFFFFFFF 0).inRange = true := by decide

theorem witness_DepthChannels : (0#16 ≠ 24#16 ∧ 0#16 ≠ 32#16) ∧ (16#16 ≠ 24#16 ∧ 16#16 ≠ 32#16) := by decide

/-- V53, V52, V51, V50, V56 and V54 stand under the clauses of R138, one each. -/
theorem witness_RleEncFollowsItsRule :
    Memory.wf (encSt 0x200 4).mem = true ∧
    (srcRange (srcDst 0xFFFFFFFE 3 0x200 8)).inRange = false ∧
    ((srcRange (encSt 0x114 8).regs).inRange = true ∧ (dstRange (encSt 0x114 8).regs).inRange = true ∧
      (dstRange (encSt 0x114 8).regs).overlaps (srcRange (encSt 0x114 8).regs) = true) ∧
    ((dstRange (encSt 0x115 3).regs).overlaps (srcRange (encSt 0x115 3).regs) = false ∧
      (dstRange (encSt 0x115 3).regs).len < (rleEncode [5, 5, 5, 5, 9]).length) ∧
    (rleEncode [5, 5, 5, 5, 9]).length ≤ (dstRange (encSt 0x115 4).regs).len := by decide

/-- V57, V59 and V60 stand under the clauses of R139; the two range clauses are those of R138. -/
theorem witness_RleDecFollowsItsRule :
    Memory.wf (decSt 5).mem = true ∧
    ((srcRange (decSt 5).regs).inRange = true ∧ (dstRange (decSt 5).regs).inRange = true ∧
      (dstRange (decSt 5).regs).overlaps (srcRange (decSt 5).regs) = false) ∧
    rleDecode (memRead (badSt 0).mem 0x100 4) = none ∧
    rleDecode (memRead (decSt 5).mem 0x200 4) = some [5, 5, 5, 5, 9] ∧ (dstRange (decSt 4).regs).len < 5 ∧
    5 ≤ (dstRange (decSt 5).regs).len ∧
    (dstRange (srcDst 0x200 4 0xFFFFFFFF 2)).inRange = false ∧
    (dstRange (srcDst 0x200 4 0x203 1)).overlaps (srcRange (srcDst 0x200 4 0x203 1)) = true := by decide

theorem witness_EncodeLiteralRun :
    ([] : List Byte).head? ≠ some 7 ∧ ([8] : List Byte).head? ≠ some 7 := by decide

theorem witness_EncodeProperties :
    Run.rep 4 5 ∈ encodeRuns [5, 5, 5, 5, 9] ∧ encodeRuns [5, 5, 5, 5, 9] = [Run.rep 4 5] ++ .lit [9] :: [] ∧
    encodeRuns [1, 2, 2, 2] = [] ++ .lit [1, 2] :: [.rep 2 2] ∧ 1 ≤ ([7] : List Byte).length ∧
    ([7] : List Byte) ≠ [] := by decide

theorem witness_DecodeRunByRun :
    (0x80#8).getLsbD 7 = true ∧ (0xFF#8).getLsbD 7 = true ∧
    ((0x02#8).getLsbD 7 = false ∧ ([1] : List Byte).length < (0x02#8).toNat) ∧
    ((0x00#8).getLsbD 7 = false ∧ (0x00#8).toNat ≤ ([] : List Byte).length) := by decide

theorem witness_RleRoundTrip :
    Memory.wf (encSt 0x200 4).mem = true ∧
    exec .rleEnc (encSt 0x200 4) = .next (after (exec .rleEnc (encSt 0x200 4))) ∧
    (after (exec .rleEnc (encSt 0x200 4))).regs.status.fault = false ∧
    (Range.mk (0x204#32).toNat (5#32).toNat).inRange = true ∧
    (Range.mk (0x204#32).toNat (5#32).toNat).overlaps
      ⟨(0x200#32).toNat, (after (exec .rleEnc (encSt 0x200 4))).regs.resultLen.toNat⟩ = false ∧
    (encSt 0x200 4).regs.srcLen.toNat ≤ (5#32).toNat :=
  ⟨by decide, rfl, by decide, by decide, by decide, by decide⟩

/-- V76, a plane out of range, an overlap with the source, V77, and V70 stand under the clauses of R163. -/
theorem witness_PlaneSplitFollowsItsRule :
    Memory.wf (splitSt 32 0x1100).mem = true ∧ channels (splitSt 16 0x1100).regs.imgBpp = none ∧
    channels (splitSt 32 0x1100).regs.imgBpp = some [.a, .r, .g, .b] ∧
    (planeRange (splitSt 32 0xFFFFFFFD).regs .a).inRange = false ∧
    (planeRange (splitSt 32 0x100F).regs .a).overlaps (imageSrcRange (splitSt 32 0x100F).regs) = true ∧
    (Channel.a ≠ .r ∧ (planeRange (splitSt 32 0x1113).regs .a).overlaps (planeRange (splitSt 32 0x1113).regs .r) = true) ∧
    (imageSrcRange (splitSt 32 0x1010).regs).inRange = true ∧
    ([Channel.a, .r, .g, .b].all fun c =>
      (planeRange (splitSt 32 0x1010).regs c).inRange &&
      !(planeRange (splitSt 32 0x1010).regs c).overlaps (imageSrcRange (splitSt 32 0x1010).regs) &&
      ([Channel.a, .r, .g, .b].all fun c' =>
        c == c' || !(planeRange (splitSt 32 0x1010).regs c).overlaps (planeRange (splitSt 32 0x1010).regs c'))) = true := by
  decide

/-- V79, a plane out of range, V81, V80 and V71 stand under the clauses of R164. -/
theorem witness_PlaneMergeFollowsItsRule :
    Memory.wf (mergeSt 32 16).mem = true ∧ channels State.reset.regs.hdrBpp = none ∧
    channels (mergeSt 24 16).regs.hdrBpp = some [.r, .g, .b] ∧
    (dstRange (mergeSt 24 0xFFFFE001).regs).inRange = false ∧
    (dstRange (planarRegs 0 32 0x200F 16)).overlaps (planeRange (planarRegs 0 32 0x200F 16) .a) = true ∧
    ((dstRange (mergeSt 24 15).regs).inRange = true ∧
      ([Channel.r, .g, .b].all fun c => (planeRange (mergeSt 24 15).regs c).inRange &&
        !(dstRange (mergeSt 24 15).regs).overlaps (planeRange (mergeSt 24 15).regs c)) = true ∧
      (dstRange (mergeSt 24 15).regs).len < 4 * (2 * 2)) ∧
    4 * (2 * 2) ≤ (dstRange (mergeSt 24 16).regs).len := by decide

/-- A split at each depth, then a merge; a merge, then a split. -/
theorem witness_PlanarInverseLaws :
    (after (exec .planeSplit (splitSt 32 0x1100))).regs.status.fault = false ∧
    (after (exec .planeSplit (splitSt 24 0x1100))).regs.status.fault = false ∧
    (after (exec .planeMerge { after (exec .planeSplit (splitSt 32 0x1100)) with
      regs := { (after (exec .planeSplit (splitSt 32 0x1100))).regs with dstAddr := 0x2000, dstCap := 16 } })).regs.status.fault
        = false ∧
    (after (exec .planeMerge { after (exec .planeSplit (splitSt 24 0x1100)) with
      regs := { (after (exec .planeSplit (splitSt 24 0x1100))).regs with dstAddr := 0x2000, dstCap := 16 } })).regs.status.fault
        = false ∧
    (after (exec .planeMerge (mergeSt 32 16))).regs.status.fault = false ∧
    (after (exec .planeSplit { after (exec .planeMerge (mergeSt 32 16)) with
      regs := { (after (exec .planeMerge (mergeSt 32 16))).regs with srcAddr := 0x2000, imgBpp := 32 } })).regs.status.fault
        = false ∧
    3 < 2 * 2 := by decide

/-- V92 and V90 stand under the clauses of R182. -/
theorem witness_HdrWriteFollowsItsRule :
    Memory.wf (hdrSt 32 2 0x200 32).mem = true ∧ channels (hdrSt 0 2 0x200 32).regs.hdrBpp = none ∧
    channels (hdrSt 32 2 0x200 32).regs.hdrBpp ≠ none ∧ (dstRange (hdrSt 32 2 0xFFFFFFF0 32).regs).inRange = false ∧
    ((dstRange (hdrSt 32 2 0x200 31).regs).inRange = true ∧ (dstRange (hdrSt 32 2 0x200 31).regs).len < 32) ∧
    ((dstRange (hdrSt 24 5 0xFFFFFFE0 32).regs).inRange = true ∧ 32 ≤ (dstRange (hdrSt 24 5 0xFFFFFFE0 32).regs).len) := by
  decide

/-- V95, a block out of range, and V93 stand under the clauses of R183. -/
theorem witness_GrdPackFollowsItsRule :
    Memory.wf (packSt 32 2 0x200 42).mem = true ∧ channels (packSt 0 2 0x200 64).regs.hdrBpp = none ∧
    channels (packSt 32 2 0x200 42).regs.hdrBpp = some [.a, .r, .g, .b] ∧
    (blkRange (packSt 32 0xFFFFFF01 0x200 42).regs .a).inRange = false ∧
    (dstRange (packSt 32 2 0xF0 64).regs).overlaps (blkRange (packSt 32 2 0xF0 64).regs .a) = true ∧
    ((dstRange (packSt 32 2 0x200 42).regs).inRange = true ∧
      ([Channel.a, .r, .g, .b].all fun c => (blkRange (packSt 32 2 0x200 42).regs c).inRange &&
        !(dstRange (packSt 32 2 0x200 42).regs).overlaps (blkRange (packSt 32 2 0x200 42).regs c)) = true ∧
      packTotal (packSt 32 2 0x200 42).regs [.a, .r, .g, .b] = 42) ∧
    (dstRange (packSt 32 2 0x200 41).regs).len < 42 ∧ 42 ≤ (dstRange (packSt 32 2 0x200 42).regs).len := by decide

/-- V100 and V101 stand under the clauses of R184, one each. -/
theorem witness_HdrReadChecks :
    (srcRange (readSt 0xFFFFFFE1 32 []).regs).inRange = false ∧ (srcRange (readSt 0x3000 31 container93).regs).inRange = true ∧
    (srcRange (readSt 0x3000 31 container93).regs).len < 32 ∧ 32 ≤ (srcRange (readSt 0x3000 32 container93).regs).len ∧
    load16 (readSt 0x3000 32 (header99 0 1 32 0 0)).mem 0x3000 ≠ 0x0101#16 ∧
    load16 (readSt 0x3000 32 (header99 1 1 16 0 0)).mem 0x3000 = 0x0101#16 ∧
    load16 (readSt 0x3000 32 (header99 1 1 16 0 0)).mem 0x3006 = 16#16 ∧
    (load16 (readSt 0x3000 34 (header99 1 1 24 2 0)).mem 0x3006 = 24#16 ∧
      load32 (readSt 0x3000 34 (header99 1 1 24 2 0)).mem 0x3010 ≠ 0#32) ∧
    (load16 (readSt 0x3000 41 container93).mem 0x3006 = 32#16 ∧ 41 < headerTotal (readSt 0x3000 41 container93).mem 0x3000) := by
  decide

/-- V96, V98's kind of header, and V100. -/
theorem witness_HdrReadLoadsHeader :
    ((srcRange (readSt 0x3000 42 container93).regs).inRange = true ∧ load16 (readSt 0x3000 42 container93).mem 0x3000 = 0x0101#16 ∧
      load16 (readSt 0x3000 42 container93).mem 0x3006 = 32#16 ∧ headerTotal (readSt 0x3000 42 container93).mem 0x3000 ≤ 42) ∧
    ((srcRange (readSt 0xFFFFFFE0 32 (header99 1 1 24 0 0)).regs).inRange = true ∧
      load16 (readSt 0xFFFFFFE0 32 (header99 1 1 24 0 0)).mem 0xFFFFFFE0 = 0x0101#16 ∧
      load16 (readSt 0xFFFFFFE0 32 (header99 1 1 24 0 0)).mem 0xFFFFFFE6 = 24#16 ∧
      load32 (readSt 0xFFFFFFE0 32 (header99 1 1 24 0 0)).mem 0xFFFFFFF0 = 0#32 ∧
      headerTotal (readSt 0xFFFFFFE0 32 (header99 1 1 24 0 0)).mem 0xFFFFFFE0 ≤ 32) := by decide

theorem witness_ContainerRoundTrip :
    Memory.wf (packSt 32 2 0x200 64).mem = true ∧ Memory.wf (packSt 24 100 0x200 64).mem = true ∧
    exec .grdPack (packSt 32 2 0x200 64) = .next (after (exec .grdPack (packSt 32 2 0x200 64))) ∧
    (after (exec .grdPack (packSt 32 2 0x200 64))).regs.status.fault = false ∧
    exec .grdPack (packSt 24 100 0x200 64) = .next (after (exec .grdPack (packSt 24 100 0x200 64))) ∧
    (after (exec .grdPack (packSt 24 100 0x200 64))).regs.status.fault = false :=
  ⟨by decide, by decide, rfl, by decide, rfl, by decide⟩

/-- The A block of V93 is what RLE_ENC writes of the plane FF FF (V16): RESULT_LEN 2. -/
theorem witness_ChannelPresence :
    (packSt 24 100 0x200 64).regs.hdrBpp = 24#16 ∧
    (after (exec .rleEnc (st (srcDst 0x110 2 0x200 2) [(0x110, [0xFF, 0xFF])]))).regs.status.fault = false ∧
    (srcDst 0x110 2 0x200 2).srcLen ≠ 0#32 ∧
    (packSt 32 2 0x200 64).regs.hdrALen =
      (after (exec .rleEnc (st (srcDst 0x110 2 0x200 2) [(0x110, [0xFF, 0xFF])]))).regs.resultLen ∧
    (packSt 32 2 0x200 64).regs.hdrBpp = 32#16 ∧
    (after (exec .grdPack (packSt 32 2 0x200 64))).regs.status.fault = false := by decide

theorem witness_PackTypeHardwired :
    Memory.wf (hdrSt 32 2 0x200 32).mem = true ∧
    (after (exec .hdrWrite (hdrSt 32 2 0x200 32))).regs.status.fault = false ∧
    (after (exec .grdPack (packSt 24 100 0x200 64))).regs.status.fault = false := by decide

theorem witness_CapacitiesThatNeverOverflow :
    (3 * 5 + 1) / 2 ≤ (encSt 0x200 8).regs.dstCap.toNat ∧
    (rleDecode (memRead (decSt 5).mem 0x200 4) = some [5, 5, 5, 5, 9] ∧
      ([5, 5, 5, 5, 9] : List Byte).length = ({ (decSt 5).regs with imgW := 5, imgH := 1 } : Regs).imgW.toNat * 1 ∧
      5 ≤ (decSt 5).regs.dstCap.toNat) ∧
    4 * (2 * 2) ≤ (mergeSt 24 16).regs.dstCap.toNat ∧ 32 ≤ (hdrSt 0 2 0x200 32).regs.dstCap.toNat ∧
    (channels (packSt 24 100 0x200 40).regs.hdrBpp = some [.r, .g, .b] ∧
      32 + ([Channel.r, .g, .b].map fun c => (lenReg (packSt 24 100 0x200 40).regs c).toNat).sum ≤
        (packSt 24 100 0x200 40).regs.dstCap.toNat) := by decide

end Sys2Proof.Tests
end

/-! ## Buffer ranges as sets of addresses, and the channels of a depth (00_scope.md R11, R12; 20_memory.md R73) -/

namespace Sys2Proof.Machine

/-- R12: of two ranges that overlap, the one that begins later begins at a shared address. -/
theorem overlaps_iff_exists_mem {x y : Range} : x.overlaps y = true ↔ ∃ a, x.mem a ∧ y.mem a := by
  rw [overlaps_iff]
  constructor
  · rintro ⟨hx, hy, hxy, hyx⟩
    rcases le_total x.base y.base with h | h
    · exact ⟨y.base, ⟨h, hyx⟩, le_refl _, Nat.lt_add_of_pos_right hy⟩
    · exact ⟨x.base, ⟨le_refl _, Nat.lt_add_of_pos_right hx⟩, h, hxy⟩
  · rintro ⟨a, ⟨hxa, hax⟩, hya, hay⟩
    omega

/-- R73: the last address of a range that is not empty decides whether it is in range; of an empty one, its base. -/
theorem inRange_iff_forall_mem_lt {x : Range} :
    x.inRange = true ↔ (∀ a, x.mem a → a < Config.memSize) ∧ x.base ≤ Config.memSize := by
  rw [inRange_iff]
  constructor
  · intro h
    exact ⟨fun a ha => ha.2.trans_le h, (Nat.le_add_right _ _).trans h⟩
  · rintro ⟨hmem, hbase⟩
    rcases Nat.eq_zero_or_pos x.len with h | h
    · rwa [h]
    · have hlast : x.base + (x.len - 1) < Config.memSize := hmem _ ⟨Nat.le_add_right _ _, by omega⟩
      omega

/-- Settles O26, from the two readings of a range as a set of addresses. -/
theorem rangeOverlapMeansSharedAddress : Obligations.RangeOverlapMeansSharedAddress :=
  fun _ _ => ⟨overlaps_iff_exists_mem, inRange_iff_forall_mem_lt⟩

/-- Settles O27: each clause is a row of `channels` or of `Channel.off`; the other depths are `channels_none`. -/
theorem depthChannels : Obligations.DepthChannels :=
  ⟨rfl, rfl, fun _ h24 h32 => channels_none.2 ⟨h24, h32⟩, rfl, rfl, rfl, rfl⟩

end Sys2Proof.Machine

/-! ## The eight commands as one family: word, body, and what a commit set may hold (10_state.md R24; 30_encoding.md
R92 to R94) -/

namespace Sys2Proof.Machine

/-- A command, with its word and its body. Proofs about every command go by cases on it. -/
inductive Command : Instr → Word → Body → Prop
  | rleEnc : Command .rleEnc 0x00000001#32 rleEncBody
  | rleDec : Command .rleDec 0x00000002#32 rleDecBody
  | planeSplit : Command .planeSplit 0x00000003#32 planeSplitBody
  | planeMerge : Command .planeMerge 0x00000004#32 planeMergeBody
  | hdrWrite : Command .hdrWrite 0x00000005#32 hdrWriteBody
  | hdrRead : Command .hdrRead 0x00000006#32 hdrReadBody
  | grdPack : Command .grdPack 0x00000007#32 grdPackBody
  | geomDefault : Command .geomDefault 0x00000008#32 geomDefaultBody

/-- The registers that the commit set of a command may name: its entries in column "block writes" of R24, but for the
three that every command may write. -/
def commitWrites : Instr → List Reg
  | .planeSplit => [.hdrBpp]
  | .hdrRead => [.hdrScrW, .hdrScrH, .hdrBpp, .hdrLeft, .hdrRight, .hdrTop, .hdrBottom, .hdrALen, .hdrRLen, .hdrGLen,
      .hdrBLen, .blkA, .blkR, .blkG, .blkB]
  | .geomDefault => [.hdrLeft, .hdrTop, .hdrRight, .hdrBottom, .hdrScrW, .hdrScrH]
  | _ => []

/-- The registers a command may write (R24, column "block writes"). -/
def blockWrites (i : Instr) : List Reg := .status :: .resultLen :: .lastCmd :: commitWrites i

/-- An instruction whose encoding is a command word is the command of that word (R94). -/
theorem Command.of_encode {i : Instr} {w : Word} (h : encode i = .cmd32 w) : ∃ body, Command i w body := by
  cases i with
  | rleEnc => cases h; exact ⟨_, .rleEnc⟩
  | rleDec => cases h; exact ⟨_, .rleDec⟩
  | planeSplit => cases h; exact ⟨_, .planeSplit⟩
  | planeMerge => cases h; exact ⟨_, .planeMerge⟩
  | hdrWrite => cases h; exact ⟨_, .hdrWrite⟩
  | hdrRead => cases h; exact ⟨_, .hdrRead⟩
  | grdPack => cases h; exact ⟨_, .grdPack⟩
  | geomDefault => cases h; exact ⟨_, .geomDefault⟩
  | regWrite idx v => cases h
  | regRead idx => cases h

/-- A command word is the encoding of the command it decodes to: its RSV is 0 and its OP picks the row (R92, R94). -/
theorem encode_of_decodeCommand {i : Instr} {w : Word} (h : decodeCommand w = some i) : encode i = .cmd32 w := by
  obtain ⟨hrsv, hop⟩ : cmdRsv w = 0 ∧ opcodeInstr (cmdOp w) = some i := by
    unfold decodeCommand at h
    split at h
    · exact ⟨‹_›, h⟩
    · cases h
  have hw : w = packCommand (cmdOp w) := by
    apply BitVec.eq_of_toNat_eq
    rw [command_fields w, command_fields (packCommand (cmdOp w)), cmdRsv_packCommand, cmdOp_packCommand, hrsv]
    rfl
  rw [hw]
  rcases opcodeInstr_cases hop with ⟨e, rfl⟩ | ⟨e, rfl⟩ | ⟨e, rfl⟩ | ⟨e, rfl⟩ | ⟨e, rfl⟩ | ⟨e, rfl⟩ | ⟨e, rfl⟩ |
    ⟨e, rfl⟩ <;> rw [e] <;> rfl

theorem Command.of_decodeCommand {i : Instr} {w : Word} (h : decodeCommand w = some i) : ∃ body, Command i w body :=
  Command.of_encode (encode_of_decodeCommand h)

section Command

variable {i : Instr} {w : Word} {body : Body} {r : Regs} {m : Memory} {c : Commit} {s t : State}

theorem Command.exec_eq (h : Command i w body) (s : State) : exec i s = .next (runCommand w body s) := by
  cases h <;> rfl

/-- The words of the commands are legal (R92). -/
theorem Command.legal (h : Command i w body) : legalCommand w = true := by
  cases h <;> decide

/-- What a command answers: the fault entry, or its commit set applied. -/
theorem Command.next_cases (h : Command i w body) (ht : exec i s = .next t) :
    (∃ f : BlockFault, t = faultedState w f.code s) ∨
    (∃ c, body s.regs s.mem = .ok c ∧ t = commit c (recordCommand w s)) := by
  rw [h.exec_eq] at ht
  cases ht
  rcases runCommand_cases w body s with ⟨f, -, h2⟩ | h2
  · exact .inl ⟨f, h2⟩
  · exact .inr h2

/-- Every register write of a commit set is to a register of the command's row of R24. -/
theorem Command.regWrites_subset (h : Command i w body) (hok : body r m = .ok c) :
    ∀ x ∈ c.regWrites, x.1 ∈ commitWrites i := by
  cases h with
  | rleEnc => obtain ⟨-, -, rfl⟩ := rleEncBody_ok.1 hok; nofun
  | rleDec => obtain ⟨-, out, -, -, rfl⟩ := rleDecBody_ok.1 hok; nofun
  | planeSplit => obtain ⟨cs, -, -, rfl⟩ := planeSplitBody_ok.1 hok; simp [commitWrites]
  | planeMerge => obtain ⟨cs, -, -, -, rfl⟩ := planeMergeBody_ok.1 hok; nofun
  | hdrWrite => obtain ⟨-, -, -, rfl⟩ := hdrWriteBody_ok.1 hok; nofun
  | hdrRead => obtain ⟨-, rfl⟩ := hdrReadBody_ok.1 hok; simp [hdrReadCommit, commitWrites]
  | grdPack => obtain ⟨cs, -, -, -, rfl⟩ := grdPackBody_ok.1 hok; nofun
  | geomDefault => cases hok; simp [commitWrites]

/-- The commands that write at DST_ADDR store one list of bytes, at DST_ADDR, no longer than DST_CAP, and their
destination range is in range (R33). -/
theorem Command.stores_of_dst (h : Command i w body)
    (hi : i ∈ [Instr.rleEnc, .rleDec, .planeMerge, .hdrWrite, .grdPack]) (hok : body r m = .ok c) :
    (dstRange r).inRange = true ∧ ∃ out, c.stores = [(r.dstAddr.toNat, out)] ∧ out.length ≤ r.dstCap.toNat := by
  have dst_inRange : ∀ {srcs}, checkRanges srcs [dstRange r] = none → (dstRange r).inRange = true :=
    fun hc => (checkRanges_none.1 hc).2.1 _ (List.mem_singleton_self _)
  cases h with
  | rleEnc => obtain ⟨hc, hlen, rfl⟩ := rleEncBody_ok.1 hok; exact ⟨dst_inRange hc, _, rfl, hlen⟩
  | rleDec => obtain ⟨hc, out, -, hlen, rfl⟩ := rleDecBody_ok.1 hok; exact ⟨dst_inRange hc, _, rfl, hlen⟩
  | planeMerge =>
    obtain ⟨cs, -, hc, hlen, rfl⟩ := planeMergeBody_ok.1 hok
    exact ⟨dst_inRange hc, _, rfl, by rwa [mergeImage_length]⟩
  | hdrWrite => obtain ⟨-, hc, hlen, rfl⟩ := hdrWriteBody_ok.1 hok; exact ⟨dst_inRange hc, _, rfl, hlen⟩
  | grdPack =>
    obtain ⟨cs, -, hc, hlen, rfl⟩ := grdPackBody_ok.1 hok
    exact ⟨dst_inRange hc, _, rfl, by rwa [packBytes_length]⟩
  | planeSplit | hdrRead | geomDefault => simp at hi

/-- A list of at most DST_CAP bytes at DST_ADDR lies in the destination range. -/
theorem storeRange_mem_dstRange {out : List Byte} {a : Nat} (hlen : out.length ≤ r.dstCap.toNat)
    (ha : (storeRange (r.dstAddr.toNat, out)).mem a) : (dstRange r).mem a :=
  ⟨ha.1, ha.2.trans_le (Nat.add_le_add_left hlen _)⟩

/-- Every memory write of a commit set is in range (20_memory.md R73). -/
theorem Command.stores_inRange (h : Command i w body) (hok : body r m = .ok c) :
    ∀ x ∈ c.stores, (storeRange x).inRange = true := by
  have dst_stores (hi : i ∈ [Instr.rleEnc, .rleDec, .planeMerge, .hdrWrite, .grdPack]) :
      ∀ x ∈ c.stores, (storeRange x).inRange = true := by
    obtain ⟨hr, out, hst, hlen⟩ := h.stores_of_dst hi hok
    intro x hx
    obtain rfl : x = _ := by simpa [hst] using hx
    exact inRange_iff.2 ((Nat.add_le_add_left hlen _).trans (inRange_iff.1 hr))
  cases h with
  | rleEnc | rleDec | planeMerge | hdrWrite | grdPack => exact dst_stores (by decide)
  | planeSplit =>
    obtain ⟨cs, -, hc, rfl⟩ := planeSplitBody_ok.1 hok
    have hplanes := (checkRanges_none.1 hc).2.1
    intro x hx
    obtain ⟨ch, hch, rfl⟩ := List.mem_map.1 hx
    rw [storeRange, splitPlane_length]
    exact hplanes _ (List.mem_map_of_mem hch)
  | hdrRead => obtain ⟨-, rfl⟩ := hdrReadBody_ok.1 hok; nofun
  | geomDefault => cases hok; nofun

/-! ### The registers a command leaves -/

theorem getReg_with_status_of_ne {n : Reg} (hn : n ≠ .status) (r : Regs) (st : Status) :
    getReg { r with status := st } n = getReg r n := by
  cases n with
  | status => exact absurd rfl hn
  | _ => rfl

/-- A 16-bit register is determined by what a read of it returns (R25). -/
theorem half_eq_of_setWidth_eq {a b : Half} (h : a.setWidth 32 = b.setWidth 32) : a = b := by
  simpa using congrArg (BitVec.setWidth 16) h

/-- A commit set leaves every register outside its command's row of R24. -/
theorem Command.getReg_applyRegWrites (h : Command i w body) (hok : body r m = .ok c) {n : Reg}
    (hn : n ∉ commitWrites i) (q : Regs) : getReg (applyRegWrites q c.regWrites) n = getReg q n :=
  applyRegWrites_other (fun x hx (he : x.1 = n) => hn (he ▸ h.regWrites_subset hok x hx)) q

/-- The register frame of a command: what R24 does not let it write reads as before. -/
theorem Command.getReg_next (h : Command i w body) (ht : exec i s = .next t) {n : Reg}
    (hn : n ∉ blockWrites i) : getReg t.regs n = getReg s.regs n := by
  simp only [blockWrites, List.mem_cons, not_or] at hn
  obtain ⟨hst, hres, hlast, hw⟩ := hn
  have hrec : getReg (recordCommand w s).regs n = getReg s.regs n := getReg_setReg_of_ne s.regs .lastCmd n w hlast
  rcases h.next_cases ht with ⟨f, rfl⟩ | ⟨c, hok, rfl⟩
  · exact (getReg_with_status_of_ne hst (recordCommand w s).regs _).trans hrec
  · calc getReg (commit c (recordCommand w s)).regs n
        = getReg (setReg (applyRegWrites (recordCommand w s).regs c.regWrites) .resultLen
            (BitVec.ofNat 32 c.result)) n :=
          getReg_with_status_of_ne hst (setReg (applyRegWrites (recordCommand w s).regs c.regWrites) .resultLen _) _
      _ = getReg (applyRegWrites (recordCommand w s).regs c.regWrites) n := getReg_setReg_of_ne _ _ _ _ hres
      _ = getReg (recordCommand w s).regs n := h.getReg_applyRegWrites hok hw _
      _ = getReg s.regs n := hrec

/-- Only PLANE_SPLIT and HDR_READ name HDR_BPP in their commit set, and the value is a depth: IMG_BPP, or the bpp field
of the header (R40). -/
theorem Command.hdrBpp_applyRegWrites (h : Command i w body) (hok : body r m = .ok c) (q : Regs) :
    (applyRegWrites q c.regWrites).hdrBpp = q.hdrBpp ∨
    ((i = .planeSplit ∧ (applyRegWrites q c.regWrites).hdrBpp = r.imgBpp ∨ i = .hdrRead) ∧
      ((applyRegWrites q c.regWrites).hdrBpp = 24#16 ∨ (applyRegWrites q c.regWrites).hdrBpp = 32#16)) := by
  have unnamed (hn : Reg.hdrBpp ∉ commitWrites i) : (applyRegWrites q c.regWrites).hdrBpp = q.hdrBpp :=
    half_eq_of_setWidth_eq (h.getReg_applyRegWrites hok hn q)
  cases h with
  | rleEnc | rleDec | planeMerge | hdrWrite | grdPack | geomDefault => exact .inl (unnamed (by decide))
  | planeSplit =>
    obtain ⟨cs, hch, -, rfl⟩ := planeSplitBody_ok.1 hok
    have hbpp : (applyRegWrites q [(.hdrBpp, r.imgBpp.setWidth 32)]).hdrBpp = r.imgBpp :=
      BitVec16_setWidth_roundtrip _
    rcases channels_cases hch with ⟨h32, -⟩ | ⟨h24, -⟩
    · exact .inr ⟨.inl ⟨rfl, hbpp⟩, .inr (hbpp.trans h32)⟩
    · exact .inr ⟨.inl ⟨rfl, hbpp⟩, .inl (hbpp.trans h24)⟩
  | hdrRead =>
    obtain ⟨hck, rfl⟩ := hdrReadBody_ok.1 hok
    obtain ⟨-, -, -, hdepth, -⟩ := hdrReadCheck_none.1 hck
    rw [hdrReadCommit_regs]
    rcases hdepth with h32 | ⟨h24, -⟩
    · exact .inr ⟨.inr rfl, .inr h32⟩
    · exact .inr ⟨.inr rfl, .inl h24⟩

/-- A command leaves its own word in LAST_CMD, at either end (R31). -/
theorem Command.lastCmd_next (h : Command i w body) (ht : exec i s = .next t) : t.regs.lastCmd = w := by
  rcases h.next_cases ht with ⟨f, rfl⟩ | ⟨c, hok, rfl⟩
  · rfl
  · exact h.getReg_applyRegWrites hok (n := .lastCmd) (by cases h <;> decide) _

end Command

end Sys2Proof.Machine

/-! ## The host transactions, case by case (40_host_interface.md R110 to R112), and one step (20_memory.md R78) -/

namespace Sys2Proof.Machine

section HostSide

variable {i : RegIdx} {n : Reg} {s : State} {w : Word}

theorem regWrite_of_reserved (hi : regAt i = none) (v : Word) (s : State) : exec (.regWrite i v) s = .next s := by
  simp only [exec, execRegWrite, hi]

theorem regWrite_of_readOnly (hi : regAt i = some n) (hn : hostAccess n = .readOnly) (v : Word) (s : State) :
    exec (.regWrite i v) s = .next s := by
  simp only [exec, execRegWrite, hi, hn]

theorem regWrite_of_readWrite (hi : regAt i = some n) (hn : hostAccess n = .readWrite) (v : Word) (s : State) :
    exec (.regWrite i v) s = .next { s with regs := setReg s.regs n v } := by
  simp only [exec, execRegWrite, hi, hn]

theorem regWrite_status (v : Word) (s : State) :
    exec (.regWrite 0x01#6 v) s = .next (s.withStatus (clearSticky s.regs.status v)) := rfl

theorem regWrite_cmd (v : Word) (s : State) : exec (.regWrite 0x00#6 v) s = execute v s := rfl

/-- CMD is the one register a write of which starts a command (R24). -/
theorem eq_cmd_of_command (hn : hostAccess n = .command) : n = .cmd := by
  cases n with
  | cmd => rfl
  | _ => exact absurd hn (by decide)

/-- STATUS is the one register with a write-one-to-clear bit (R24). -/
theorem eq_status_of_statusClear (hn : hostAccess n = .statusClear) : n = .status := by
  cases n with
  | status => rfl
  | _ => exact absurd hn (by decide)

/-- The indices 0x1F to 0x3F, and no others, hold no register (R26). -/
theorem regAt_eq_none_iff : regAt i = none ↔ 0x1F ≤ i.toNat := by
  have key : ∀ a : Fin 64, regAt (BitVec.ofFin a) = none ↔ 0x1F ≤ a.val := by decide
  exact key i.toFin

/-- A command word runs the command it decodes to (R112). -/
theorem execute_of_decodeCommand {j : Instr} (h : decodeCommand w = some j) (s : State) : execute w s = exec j s := by
  obtain ⟨body, hcmd⟩ := Command.of_decodeCommand h
  unfold execute
  rw [h]
  cases hcmd <;> rfl

/-- An illegal word decodes to no command (R92). -/
theorem decodeCommand_of_not_legal (h : legalCommand w = false) : decodeCommand w = none := by
  rw [← Option.not_isSome_iff_eq_none, Option.isSome_iff_exists]
  rintro ⟨j, hj⟩
  obtain ⟨body, hcmd⟩ := Command.of_decodeCommand hj
  cases hcmd.legal.symm.trans h

theorem step_idle (h : s.pending = []) : step s = .next s := by
  unfold step; rw [takeEvent_nil s h]

theorem step_transaction {t : Transaction} {rest : List HostEvent} (h : s.pending = .transaction t :: rest) :
    step s = exec (decodeTransaction t) { s with pending := rest } := by
  unfold step; rw [takeEvent_cons s _ _ h]

theorem step_memWrite {a : Word} {b : Byte} {rest : List HostEvent} (h : s.pending = .memWrite a b :: rest) :
    step s = .next (hostMemWrite a b { s with pending := rest }) := by
  unfold step; rw [takeEvent_cons s _ _ h]

theorem step_reset {rest : List HostEvent} (h : s.pending = .reset :: rest) :
    step s = .next (resetBlock { s with pending := rest }) := by
  unfold step; rw [takeEvent_cons s _ _ h]

end HostSide

/-! ## Every end of an instruction -/

/-- What an instruction can leave of s: a command's fault entry or its commit set, whether the instruction is the
command or the CMD write that delivers it; STICKY cleared; one read-write register written; or the registers and the
memory as they were. -/
inductive InstrEnd (i : Instr) (s : State) : State → Prop
  | fault (w : Word) (f : BlockFault) : InstrEnd i s (faultedState w f.code s)
  | done {j : Instr} {w : Word} {body : Body} {c : Commit} (hcmd : Command j w body)
      (hi : i = j ∨ i = .regWrite 0x00#6 w) (hok : body s.regs s.mem = .ok c) :
      InstrEnd i s (commit c (recordCommand w s))
  | status (v : Word) : InstrEnd i s (s.withStatus (clearSticky s.regs.status v))
  | register (n : Reg) (v : Word) (hn : hostAccess n = .readWrite) : InstrEnd i s { s with regs := setReg s.regs n v }
  | unchanged {t : State} (hregs : t.regs = s.regs) (hmem : t.mem = s.mem) : InstrEnd i s t

theorem Command.instrEnd {i j : Instr} {w : Word} {body : Body} (h : Command j w body)
    (hi : i = j ∨ i = .regWrite 0x00#6 w) (s : State) : InstrEnd i s (runCommand w body s) := by
  rcases runCommand_cases w body s with ⟨f, -, he⟩ | ⟨c, hok, he⟩
  · rw [he]; exact .fault w f
  · rw [he]; exact .done h hi hok

/-- A write to CMD ends as the command it delivers, or in IllegalCommand (R112). -/
theorem regWrite_cmd_end (v : Word) (s : State) :
    ∃ t, exec (.regWrite 0x00#6 v) s = .next t ∧ InstrEnd (.regWrite 0x00#6 v) s t := by
  rw [regWrite_cmd]
  cases hd : decodeCommand v with
  | none => exact ⟨_, execute_none hd, .fault v .illegalCommand⟩
  | some j =>
    obtain ⟨body, hcmd⟩ := Command.of_decodeCommand hd
    exact ⟨_, (execute_of_decodeCommand hd s).trans (hcmd.exec_eq s), hcmd.instrEnd (.inr rfl) s⟩

theorem regWrite_end (i : RegIdx) (v : Word) (s : State) :
    ∃ t, exec (.regWrite i v) s = .next t ∧ InstrEnd (.regWrite i v) s t := by
  cases hi : regAt i with
  | none => exact ⟨s, regWrite_of_reserved hi v s, .unchanged rfl rfl⟩
  | some n =>
    cases hn : hostAccess n with
    | readWrite => exact ⟨_, regWrite_of_readWrite hi hn v s, .register n v hn⟩
    | readOnly => exact ⟨s, regWrite_of_readOnly hi hn v s, .unchanged rfl rfl⟩
    | command =>
      obtain rfl := eq_cmd_of_command hn
      obtain rfl := index_of_regAt i _ hi
      exact regWrite_cmd_end v s
    | statusClear =>
      obtain rfl := eq_status_of_statusClear hn
      obtain rfl := index_of_regAt i _ hi
      exact ⟨_, regWrite_status v s, .status v⟩

/-- Every instruction answers a next state, by one of the five ends. -/
theorem exec_end (i : Instr) (s : State) : ∃ t, exec i s = .next t ∧ InstrEnd i s t := by
  have command_end {w : Word} (he : encode i = .cmd32 w) : ∃ t, exec i s = .next t ∧ InstrEnd i s t := by
    obtain ⟨body, h⟩ := Command.of_encode he
    exact ⟨_, h.exec_eq s, h.instrEnd (.inl rfl) s⟩
  cases i with
  | regWrite idx v => exact regWrite_end idx v s
  | regRead idx => exact ⟨_, rfl, .unchanged rfl rfl⟩
  | _ => exact command_end rfl

/-! ## The invariant -/

theorem faultStatus_ok (f : BlockFault) : (faultStatus f).Ok := by
  obtain ⟨hlegal, hne⟩ := code_legal f
  exact ⟨hlegal, iff_of_true rfl hne⟩

theorem okStatus_ok (st : Status) : (okStatus st).Ok := ⟨rfl, iff_of_false Bool.false_ne_true (absurd rfl)⟩

/-- STICKY is not tied to the other fields (R29). -/
theorem clearSticky_ok {st : Status} (h : st.Ok) (v : Word) : (clearSticky st v).Ok := by
  unfold Status.Ok
  rw [clearSticky_fault, clearSticky_fcode]
  exact h

/-- HDR_BPP stays 0, 24 or 32 through the register writes of a command (R40). -/
theorem Command.depthOk_applyRegWrites {i : Instr} {w : Word} {body : Body} {r : Regs} {m : Memory} {c : Commit}
    (h : Command i w body) (hok : body r m = .ok c) {q : Regs} (hq : DepthOk q.hdrBpp) :
    DepthOk (applyRegWrites q c.regWrites).hdrBpp := by
  rcases h.hdrBpp_applyRegWrites hok q with heq | ⟨-, hdepth⟩
  · rwa [heq]
  · exact .inr hdepth

theorem InstrEnd.inv {i : Instr} {s t : State} (h : InstrEnd i s t) (hs : s.Inv) : t.Inv := by
  obtain ⟨hmem, hstatus, hdepth⟩ := hs
  cases h with
  | fault w f => exact ⟨hmem, faultStatus_ok f, hdepth⟩
  | done hcmd _ hok =>
    exact ⟨Memory.wf_applyStores hmem (hcmd.stores_inRange hok), okStatus_ok _, hcmd.depthOk_applyRegWrites hok hdepth⟩
  | status v => exact ⟨hmem, clearSticky_ok hstatus v, hdepth⟩
  | register n v hn =>
    have hne : n ≠ .hdrBpp := by rintro rfl; cases hn
    exact ⟨hmem, by rwa [setReg_status], by rwa [setReg_hdrBpp_of_ne _ _ _ hne]⟩
  | unchanged hregs hm => exact ⟨hm ▸ hmem, hregs ▸ hstatus, hregs ▸ hdepth⟩

theorem regsReset_status_ok : Regs.reset.status.Ok := okStatus_ok Status.reset

theorem hostMemWrite_inv {s : State} (hs : s.Inv) (a : Word) (b : Byte) : (hostMemWrite a b s).Inv :=
  ⟨Memory.wf_writeByte hs.mem_wf a.isLt, hs.status_ok, hs.depth_ok⟩

theorem resetBlock_inv {s : State} (hs : s.Inv) : (resetBlock s).Inv :=
  ⟨hs.mem_wf, regsReset_status_ok, .inl rfl⟩

/-- The invariant does not see the host's side. -/
theorem State.Inv.with_pending {s : State} (hs : s.Inv) (rest : List HostEvent) :
    State.Inv { s with pending := rest } := ⟨hs.mem_wf, hs.status_ok, hs.depth_ok⟩

/-- Settles O12, by cases on the oldest event; a transaction by the ends of its instruction. -/
theorem stepKeepsInvariant : Obligations.StepKeepsInvariant := by
  intro s hs
  cases hp : s.pending with
  | nil => exact ⟨s, step_idle hp, hs⟩
  | cons e rest =>
    have hs' := hs.with_pending rest
    cases e with
    | transaction t =>
      obtain ⟨u, hu, hend⟩ := exec_end (decodeTransaction t) { s with pending := rest }
      exact ⟨u, (step_transaction hp).trans hu, hend.inv hs'⟩
    | memWrite a b => exact ⟨_, step_memWrite hp, hostMemWrite_inv hs' a b⟩
    | reset => exact ⟨_, step_reset hp, resetBlock_inv hs'⟩

/-- Settles O11: the empty memory is canonical, and STATUS and HDR_BPP are 0. -/
theorem invariantHoldsAtReset : Obligations.InvariantHoldsAtReset := ⟨rfl, regsReset_status_ok, .inl rfl⟩

end Sys2Proof.Machine

/-! ## The registers and flags, as the host and the commands see them (10_state.md R24 to R43) -/

namespace Sys2Proof.Machine

/-! ### STATUS -/

/-- The STATUS word bit by bit (R28). -/
theorem statusWord_getLsbD (st : Status) (k : Nat) :
    (statusWord st).getLsbD k =
      ((decide (k = 0) && st.fault) || (decide (k = 1) && st.sticky) ||
        (decide (8 ≤ k) && st.fcode.getLsbD (k - 8))) := by
  have hhigh : 24 ≤ k → st.fcode.getLsbD (k - 8) = false := fun h => BitVec.getLsbD_of_ge _ _ (by omega)
  simp only [statusWord, BitVec.getLsbD_or, BitVec.getLsbD_shiftLeft, BitVec.getLsbD_setWidth, BitVec.getLsbD_ofBool]
  grind

/-- Settles O14, from the bits of the STATUS word. -/
theorem statusWordFields : Obligations.StatusWordFields := by
  intro st
  refine ⟨by rw [statusWord_getLsbD]; simp, by rw [statusWord_getLsbD]; simp, ?_, fun k hk => ?_⟩
  · apply BitVec.eq_of_getLsbD_eq
    intro j hj
    have hne : 8 + j ≠ 1 := by omega
    simp [statusWord_getLsbD, hj, hne]
  · have h0 : k ≠ 0 := by omega
    have h1 : k ≠ 1 := by omega
    have hfcode : (decide (8 ≤ k) && st.fcode.getLsbD (k - 8)) = false := by
      rcases hk with ⟨-, h8⟩ | h16
      · simp [Nat.not_le.2 h8]
      · simp [BitVec.getLsbD_of_ge st.fcode (k - 8) (by omega)]
    simp [statusWord_getLsbD, h0, h1, hfcode]

/-- Settles O17: the write goes to STATUS alone, and bit 1 decides. -/
theorem statusWriteClearsSticky : Obligations.StatusWriteClearsSticky := by
  intro s v
  rw [regWrite_status]
  unfold clearSticky
  cases v.getLsbD 1 <;> rfl

/-! ### Register writes by the host -/

theorem readIndex_of_regAt {i : RegIdx} {n : Reg} (hi : regAt i = some n) (r : Regs) : readIndex r i = getReg r n := by
  unfold readIndex; rw [hi]

theorem readIndex_of_reserved {i : RegIdx} (hi : regAt i = none) (r : Regs) : readIndex r i = 0#32 := by
  unfold readIndex; rw [hi]; rfl

/-- A write to one register leaves what every other index reads (R25). -/
theorem readIndex_setReg_of_ne {i j : RegIdx} {n : Reg} (hi : regAt i = some n) (hj : j ≠ i) (r : Regs) (v : Word) :
    readIndex (setReg r n v) j = readIndex r j := by
  cases hk : regAt j with
  | none => rw [readIndex_of_reserved hk, readIndex_of_reserved hk]
  | some k =>
    have hne : k ≠ n := by rintro rfl; exact hj (regAt_injective j i _ hk hi)
    rw [readIndex_of_regAt hk, readIndex_of_regAt hk, getReg_setReg_of_ne _ _ _ _ hne]

/-- A write to a read-write register stores the value at its width, and nothing else (R25). -/
theorem regWrite_stores {i : RegIdx} {n : Reg} (hi : regAt i = some n) (hn : hostAccess n = .readWrite) (v : Word)
    (s : State) :
    ∃ t, exec (.regWrite i v) s = .next t ∧ readIndex t.regs i = storedValue n v ∧
      (∀ j, j ≠ i → readIndex t.regs j = readIndex s.regs j) ∧ t.mem = s.mem ∧ keepsHost s t := by
  refine ⟨_, regWrite_of_readWrite hi hn v s, ?_, fun j hj => readIndex_setReg_of_ne hi hj s.regs v, rfl, rfl, rfl⟩
  rw [readIndex_of_regAt hi]
  exact getReg_setReg_same _ _ _ (stored_of_readWrite n hn)

/-- Settles O15: the listed indices are read-write registers of the width their list names. -/
theorem regWriteStoresOneRegister : Obligations.RegWriteStoresOneRegister := by
  have half_rows : ∀ i ∈ [0x08#6, 0x09#6, 0x0A#6, 0x14#6, 0x15#6, 0x17#6, 0x18#6, 0x19#6, 0x1A#6],
      ∃ n ∈ regAt i, hostAccess n = .readWrite ∧ regWidth n = 16 := by decide
  have word_rows : ∀ i ∈ [0x04#6, 0x05#6, 0x06#6, 0x07#6, 0x0B#6, 0x0C#6, 0x0D#6, 0x0E#6, 0x0F#6, 0x10#6, 0x11#6,
      0x12#6, 0x1B#6, 0x1C#6, 0x1D#6, 0x1E#6], ∃ n ∈ regAt i, hostAccess n = .readWrite ∧ regWidth n = 32 := by decide
  intro s i v
  constructor
  · intro hi
    obtain ⟨n, hn, hacc, hwidth⟩ := half_rows i hi
    have hval : storedValue n v = (v.extractLsb' 0 16).setWidth 32 := by
      rw [storedValue, if_pos hwidth, BitVec.setWidth_eq_extractLsb' (x := v) (by decide : 16 ≤ 32)]
    rw [← hval]
    exact regWrite_stores hn hacc v s
  · intro hi
    obtain ⟨n, hn, hacc, hwidth⟩ := word_rows i hi
    have hval : storedValue n v = v := by rw [storedValue, if_neg (by rw [hwidth]; decide)]
    have hstores := regWrite_stores hn hacc v s
    rwa [hval] at hstores

/-- Settles O16: the indices from 0x1F hold no register, and the four others a read-only one. -/
theorem reservedAndReadOnlyIgnoreWrites : Obligations.ReservedAndReadOnlyIgnoreWrites := by
  have readOnly_rows : ∀ i ∈ [0x02#6, 0x03#6, 0x13#6, 0x16#6], ∃ n ∈ regAt i, hostAccess n = .readOnly := by decide
  intro s i v
  constructor
  · intro hi
    have hnone := regAt_eq_none_iff.2 hi
    exact ⟨regWrite_of_reserved hnone v s, readIndex_of_reserved hnone s.regs⟩
  · intro hi
    obtain ⟨n, hn, hacc⟩ := readOnly_rows i hi
    exact regWrite_of_readOnly hn hacc v s

/-- Settles O18: by whether w decodes, through `execute_of_decodeCommand` and `execute_none`. -/
theorem cmdWriteRunsItsCommand : Obligations.CmdWriteRunsItsCommand := by
  intro s w
  refine ⟨fun i hi => execute_of_decodeCommand (decode_cmd32_ok.1 hi) s,
    fun hw => execute_none (decodeCommand_of_not_legal hw), ?_, rfl⟩
  rw [regWrite_cmd]
  cases hd : decodeCommand w with
  | none => exact ⟨_, execute_none hd, rfl⟩
  | some i =>
    obtain ⟨body, hcmd⟩ := Command.of_decodeCommand hd
    rw [execute_of_decodeCommand hd]
    exact ⟨_, hcmd.exec_eq s, hcmd.lastCmd_next (hcmd.exec_eq s)⟩

/-! ### Commands and flags -/

/-- No body reads a flag (R43). -/
theorem Command.body_with_status {i : Instr} {w : Word} {body : Body} (h : Command i w body) (r : Regs) (m : Memory)
    (st : Status) : body { r with status := st } m = body r m := by
  cases h <;> rfl

theorem setReg_with_status (r : Regs) (n : Reg) (v : Word) (st : Status) :
    setReg { r with status := st } n v = { setReg r n v with status := st } := by
  cases n <;> rfl

theorem applyRegWrites_with_status (r : Regs) (ws : List (Reg × Word)) (st : Status) :
    applyRegWrites { r with status := st } ws = { applyRegWrites r ws with status := st } := by
  induction ws generalizing r with
  | nil => rfl
  | cons x ws ih => rw [applyRegWrites_cons, setReg_with_status, ih, applyRegWrites_cons]

/-- A commit set applied under other flags leaves the same state, but for the flags. -/
theorem commit_withStatus (c : Commit) (w : Word) (s : State) (st : Status) :
    (commit c (recordCommand w (s.withStatus st))).withStatus (okStatus s.regs.status) =
      commit c (recordCommand w s) := by
  have hregs := applyRegWrites_with_status (recordCommand w s).regs c.regWrites st
  unfold State.withStatus commit
  dsimp only [recordCommand] at hregs ⊢
  rw [hregs]

/-- Settles O20: both runs take the same end of the command, since its body sees no flag. -/
theorem noCommandReadsAFlag : Obligations.NoCommandReadsAFlag := by
  intro i w s st t hi ht
  obtain ⟨body, h⟩ := Command.of_encode hi
  have hbody : body (s.withStatus st).regs (s.withStatus st).mem = body s.regs s.mem :=
    h.body_with_status s.regs s.mem st
  rw [h.exec_eq] at ht
  cases ht
  refine ⟨_, h.exec_eq _, ?_⟩
  rcases runCommand_cases w body s with ⟨f, hf, he⟩ | ⟨c, hc, he⟩
  · rw [he, runCommand_error (hbody.trans hf)]
    exact ⟨rfl, rfl, rfl⟩
  · rw [he, runCommand_ok (hbody.trans hc)]
    exact ⟨commit_withStatus c w s st, rfl, rfl⟩

/-! ### What a command leaves unchanged -/

/-- The PLANE registers (R36). -/
def planeRegs : List Reg := [.planeA, .planeR, .planeG, .planeB]

/-- The BLK and LEN registers (R37). -/
def blockRegs : List Reg := [.blkA, .blkR, .blkG, .blkB, .hdrALen, .hdrRLen, .hdrGLen, .hdrBLen]

/-- The operand registers (R32 to R36): "block writes" none. -/
def operandRegs : List Reg := [.srcAddr, .srcLen, .dstAddr, .dstCap, .imgW, .imgH, .imgBpp] ++ planeRegs

/-- The geometry fields of the header. -/
def geometryRegs : List Reg := [.hdrScrW, .hdrScrH, .hdrLeft, .hdrRight, .hdrTop, .hdrBottom]

section Frame

variable {i : Instr} {w : Word} {body : Body}

theorem Command.operandRegs_not_written (h : Command i w body) : ∀ n ∈ operandRegs, n ∉ blockWrites i := by
  cases h <;> decide

theorem Command.blockRegs_not_written (h : Command i w body) (hi : i ≠ .hdrRead) :
    ∀ n ∈ blockRegs, n ∉ blockWrites i := by
  cases h with
  | hdrRead => exact absurd rfl hi
  | _ => decide

theorem Command.geometryRegs_not_written (h : Command i w body) (hi : i ≠ .hdrRead) (hi' : i ≠ .geomDefault) :
    ∀ n ∈ geometryRegs, n ∉ blockWrites i := by
  cases h with
  | hdrRead => exact absurd rfl hi
  | geomDefault => exact absurd rfl hi'
  | _ => decide

theorem Command.hdrBpp_not_written (h : Command i w body) (hi : i ≠ .hdrRead) (hi' : i ≠ .planeSplit) :
    Reg.hdrBpp ∉ blockWrites i := by
  cases h with
  | hdrRead => exact absurd rfl hi
  | planeSplit => exact absurd rfl hi'
  | _ => decide

end Frame

theorem planeReg_congr {q r : Regs} (h : ∀ n ∈ planeRegs, getReg q n = getReg r n) (c : Channel) :
    planeReg q c = planeReg r c := by
  cases c with
  | a => exact h .planeA (by decide)
  | r => exact h .planeR (by decide)
  | g => exact h .planeG (by decide)
  | b => exact h .planeB (by decide)

theorem blkReg_lenReg_congr {q r : Regs} (h : ∀ n ∈ blockRegs, getReg q n = getReg r n) (c : Channel) :
    blkReg q c = blkReg r c ∧ lenReg q c = lenReg r c := by
  cases c with
  | a => exact ⟨h .blkA (by decide), h .hdrALen (by decide)⟩
  | r => exact ⟨h .blkR (by decide), h .hdrRLen (by decide)⟩
  | g => exact ⟨h .blkG (by decide), h .hdrGLen (by decide)⟩
  | b => exact ⟨h .blkB (by decide), h .hdrBLen (by decide)⟩

/-- Settles O22: each group of registers is outside the command's row of R24, so a read of it is as before. -/
theorem commandRegisterFrame : Obligations.CommandRegisterFrame := by
  intro i w s t hi ht
  obtain ⟨body, h⟩ := Command.of_encode hi
  have kept {ns : List Reg} (hns : ∀ n ∈ ns, n ∉ blockWrites i) : ∀ n ∈ ns, getReg t.regs n = getReg s.regs n :=
    fun n hn => h.getReg_next ht (hns n hn)
  refine ⟨?_, fun hr => ?_, fun hr hg => ?_, fun hr hp => ?_⟩
  · have op := kept h.operandRegs_not_written
    exact ⟨op .srcAddr (by decide), op .srcLen (by decide), op .dstAddr (by decide), op .dstCap (by decide),
      half_eq_of_setWidth_eq (op .imgW (by decide)), half_eq_of_setWidth_eq (op .imgH (by decide)),
      half_eq_of_setWidth_eq (op .imgBpp (by decide)),
      planeReg_congr fun n hn => op n (List.mem_append_right _ hn)⟩
  · exact blkReg_lenReg_congr (kept (h.blockRegs_not_written hr))
  · have geom := kept (h.geometryRegs_not_written hr hg)
    exact ⟨half_eq_of_setWidth_eq (geom .hdrScrW (by decide)), half_eq_of_setWidth_eq (geom .hdrScrH (by decide)),
      half_eq_of_setWidth_eq (geom .hdrLeft (by decide)), half_eq_of_setWidth_eq (geom .hdrRight (by decide)),
      half_eq_of_setWidth_eq (geom .hdrTop (by decide)), half_eq_of_setWidth_eq (geom .hdrBottom (by decide))⟩
  · exact half_eq_of_setWidth_eq (h.getReg_next ht (h.hdrBpp_not_written hr hp))

/-- Settles O23: the one store of such a command lies in the destination range. -/
theorem storesStayInDestination : Obligations.StoresStayInDestination := by
  intro i s t hi hmem ht a ha
  obtain ⟨w, body, h⟩ : ∃ w body, Command i w body := by
    simp only [List.mem_cons, List.not_mem_nil, or_false] at hi
    rcases hi with rfl | rfl | rfl | rfl | rfl
    · exact ⟨_, _, .rleEnc⟩
    · exact ⟨_, _, .rleDec⟩
    · exact ⟨_, _, .planeMerge⟩
    · exact ⟨_, _, .hdrWrite⟩
    · exact ⟨_, _, .grdPack⟩
  rcases h.next_cases ht with ⟨f, rfl⟩ | ⟨c, hok, rfl⟩
  · rfl
  · obtain ⟨-, out, hst, hlen⟩ := h.stores_of_dst hi hok
    refine readByte_applyStores_outside hmem (h.stores_inRange hok) fun x hx hxa => ha ?_
    obtain rfl : x = _ := by simpa [hst] using hx
    exact storeRange_mem_dstRange hlen hxa

/-- Settles O25, by the ends of the instruction: only a commit set of PLANE_SPLIT or HDR_READ names HDR_BPP. -/
theorem hdrBppWrittenOnlyBySplitAndRead : Obligations.HdrBppWrittenOnlyBySplitAndRead := by
  intro i s t ht hne
  obtain ⟨u, hu, hend⟩ := exec_end i s
  cases ht.symm.trans hu
  cases hend with
  | fault w f => exact absurd rfl hne
  | status v => exact absurd rfl hne
  | unchanged hregs _ => exact absurd (congrArg Regs.hdrBpp hregs) hne
  | register n v hn =>
    have hn' : n ≠ .hdrBpp := by rintro rfl; cases hn
    exact absurd (setReg_hdrBpp_of_ne _ _ _ hn') hne
  | @done j w body c hcmd hi hok =>
    rcases hcmd.hdrBpp_applyRegWrites hok (recordCommand w s).regs with heq | ⟨hj, hdepth⟩
    · exact absurd heq hne
    · rcases hj with ⟨rfl, hbpp⟩ | rfl
      · cases hcmd
        rcases hi with rfl | rfl
        · exact ⟨.inl rfl, hdepth, fun _ => hbpp⟩
        · exact ⟨.inr (.inr (.inl rfl)), hdepth, nofun⟩
      · cases hcmd
        rcases hi with rfl | rfl
        · exact ⟨.inr (.inl rfl), hdepth, nofun⟩
        · exact ⟨.inr (.inr (.inr rfl)), hdepth, nofun⟩

/-! ### HDR_PACKTYPE -/

/-- The container header begins with PACK_TYPE, 01 01 (R38, 43_container.md R181). -/
theorem Command.stores_packType {i : Instr} {w : Word} {body : Body} {r : Regs} {m : Memory} {c : Commit}
    (h : Command i w body) (hi : i = .hdrWrite ∨ i = .grdPack) (hok : body r m = .ok c) :
    ∃ out, c.stores = [(r.dstAddr.toNat, 0x01#8 :: 0x01#8 :: out)] := by
  rcases hi with rfl | rfl
  · cases h
    obtain ⟨-, -, -, rfl⟩ := hdrWriteBody_ok.1 hok
    exact ⟨_, rfl⟩
  · cases h
    obtain ⟨cs, -, -, -, rfl⟩ := grdPackBody_ok.1 hok
    exact ⟨_, rfl⟩

/-- Settles O47: a success of HDR_WRITE or GRD_PACK is its one store, whose first two bytes are PACK_TYPE's. -/
theorem packTypeHardwired : Obligations.PackTypeHardwired := by
  refine ⟨fun s => rfl, fun s v => regWrite_of_readOnly (n := .hdrPackType) rfl rfl v s, ?_⟩
  intro i s t hi hmem ht hfault
  obtain ⟨w, body, h⟩ : ∃ w body, Command i w body := by
    rcases hi with rfl | rfl
    · exact ⟨_, _, .hdrWrite⟩
    · exact ⟨_, _, .grdPack⟩
  rcases h.next_cases ht with ⟨f, rfl⟩ | ⟨c, hok, rfl⟩
  · cases hfault
  · obtain ⟨out, hst⟩ := h.stores_packType hi hok
    have hlen := inRange_iff.1 (h.stores_inRange hok _ (by rw [hst]; exact List.mem_singleton_self _))
    rw [commit_mem, hst]
    exact ⟨readByte_memWrite_inside hmem hlen (i := 0) (by simp), readByte_memWrite_inside hmem hlen (i := 1) (by simp)⟩

end Sys2Proof.Machine

/-! ## The encoding: decoder against encoder (30_encoding.md R91 to R96), and a step of a delivered word (R90) -/

namespace Sys2Proof.Machine

section Encoding

variable {i : Instr} {x : InstrWord} {w : Word} {t : Transaction} {idx : RegIdx} {s : State}

/-! ### Transactions (R91) -/

theorem decodeTransaction_of_write (h : hostWe t = 1#1) : decodeTransaction t = .regWrite (hostIdx t) (hostData t) :=
  if_pos h

theorem decodeTransaction_of_read (h : hostWe t ≠ 1#1) : decodeTransaction t = .regRead (hostIdx t) := if_neg h

theorem decodeTransaction_pack_write (idx : RegIdx) (v : Word) :
    decodeTransaction (packTransaction 1#1 idx v) = .regWrite idx v := by
  rw [decodeTransaction_of_write (hostWe_packTransaction 1#1 idx v), hostIdx_packTransaction, hostData_packTransaction]

/-- A read decodes to its index whatever its DATA bits are. -/
theorem decodeTransaction_pack_read (idx : RegIdx) (v : Word) :
    decodeTransaction (packTransaction 0#1 idx v) = .regRead idx := by
  have hwe : hostWe (packTransaction 0#1 idx v) ≠ 1#1 := by rw [hostWe_packTransaction]; decide
  rw [decodeTransaction_of_read hwe, hostIdx_packTransaction]

theorem hostWe_eq_one_iff : hostWe t = 1#1 ↔ t.getLsbD 38 = true := by
  have hbit : (hostWe t).getLsbD 0 = t.getLsbD 38 := by simp [hostWe]
  rcases BitVec.eq_zero_or_eq_one (hostWe t) with h | h <;> rw [← hbit, h] <;> decide

/-- The write a transaction decodes to has the transaction's three fields. -/
theorem pack_of_decodeTransaction_write {v : Word} (h : decodeTransaction t = .regWrite idx v) :
    packTransaction 1#1 idx v = t := by
  by_cases hwe : hostWe t = 1#1
  · rw [decodeTransaction_of_write hwe] at h
    cases h
    simpa only [hwe] using packTransaction_fields t
  · rw [decodeTransaction_of_read hwe] at h
    cases h

theorem decodeTransaction_eq_read_iff :
    decodeTransaction t = .regRead idx ↔ t.getLsbD 38 = false ∧ hostIdx t = idx := by
  rw [← Bool.not_eq_true, ← hostWe_eq_one_iff]
  by_cases hwe : hostWe t = 1#1
  · rw [decodeTransaction_of_write hwe]
    exact iff_of_false nofun fun h => h.1 hwe
  · rw [decodeTransaction_of_read hwe, Instr.regRead.injEq]
    exact (and_iff_right hwe).symm

theorem decode_host39_ok : decode (.host39 t) = .ok i ↔ decodeTransaction t = i := by simp only [decode, Except.ok.injEq]

/-! ### Command words (R92, R94) -/

theorem decodeCommand_of_rsv (h : cmdRsv w = 0#24) : decodeCommand w = opcodeInstr (cmdOp w) := if_pos h

theorem decodeCommand_packCommand (op : BitVec 8) : decodeCommand (packCommand op) = opcodeInstr op := by
  rw [decodeCommand_of_rsv (cmdRsv_packCommand op), cmdOp_packCommand]

/-- `legalCommand` divides where R92 cuts the word into RSV and OP. -/
theorem legalCommand_iff :
    legalCommand w = true ↔ cmdRsv w = 0#24 ∧ 1 ≤ (cmdOp w).toNat ∧ (cmdOp w).toNat ≤ 8 := by
  have hw := command_fields w
  have hlt := (cmdOp w).isLt
  have hop : w.toNat % 256 = (cmdOp w).toNat := by omega
  have hrsv : w.toNat / 256 = (cmdRsv w).toNat := by omega
  simp [legalCommand, hop, hrsv, BitVec.toNat_eq, and_assoc]

/-- Every OP from 0x01 to 0x08 has its row in the opcode map (R94). -/
theorem exists_opcodeInstr {op : BitVec 8} (h1 : 1 ≤ op.toNat) (h8 : op.toNat ≤ 8) : ∃ i, opcodeInstr op = some i := by
  have key : ∀ n : Fin 9, 1 ≤ n.val → (opcodeInstr (BitVec.ofNat 8 n)).isSome = true := by decide
  have hop := key ⟨op.toNat, Nat.lt_succ_of_le h8⟩ h1
  rw [BitVec.ofNat_toNat, BitVec.setWidth_eq] at hop
  exact Option.isSome_iff_exists.1 hop

theorem exists_decodeCommand_iff : (∃ i, decodeCommand w = some i) ↔ legalCommand w = true := by
  constructor
  · rintro ⟨i, hi⟩
    obtain ⟨body, hcmd⟩ := Command.of_decodeCommand hi
    exact hcmd.legal
  · intro h
    obtain ⟨hrsv, h1, h8⟩ := legalCommand_iff.1 h
    rw [decodeCommand_of_rsv hrsv]
    exact exists_opcodeInstr h1 h8

/-! ### What a step runs -/

/-- The transaction that brings a word to the block runs the instruction of the word: a command by the write to CMD
(R90, R112). -/
theorem exec_deliver (h : decode x = .ok i) (s : State) : exec (decodeTransaction (deliver x)) s = exec i s := by
  cases x with
  | cmd32 w =>
    calc exec (decodeTransaction (deliver (.cmd32 w))) s
        = exec (.regWrite 0x00#6 w) s := by rw [deliver, decodeTransaction_pack_write]
      _ = execute w s := regWrite_cmd w s
      _ = exec i s := execute_of_decodeCommand (decode_cmd32_ok.1 h) s
  | host39 t => rw [deliver, decode_host39_ok.1 h]

theorem decode_of_decodeTableWord {nbits n : Nat} (h : decodeTableWord nbits n = some i) :
    decode (tableWord nbits n) = .ok i := by
  unfold decodeTableWord at h
  split at h
  · split at h
    · next j hj => rw [hj, Option.some.inj h]
    · cases h
  · cases h

/-! ### Instructions that store nothing (R93, column "memory written") -/

theorem Command.stores_eq_nil {body : Body} {r : Regs} {m : Memory} {c : Commit} (h : Command i w body)
    (hi : i ∈ [Instr.hdrRead, .geomDefault]) (hok : body r m = .ok c) : c.stores = [] := by
  cases h with
  | hdrRead => obtain ⟨-, rfl⟩ := hdrReadBody_ok.1 hok; rfl
  | geomDefault => cases hok; rfl
  | _ => simp at hi

theorem Command.mem_next_of_no_stores {body : Body} {t : State} (h : Command i w body)
    (hi : i ∈ [Instr.hdrRead, .geomDefault]) (ht : exec i s = .next t) : t.mem = s.mem := by
  rcases h.next_cases ht with ⟨f, rfl⟩ | ⟨c, hok, rfl⟩
  · rfl
  · rw [commit_mem, h.stores_eq_nil hi hok, applyStores_nil, recordCommand_mem]

/-- Of the ends of a register write only a command's commit set stores bytes, and only a write to CMD ends so. -/
theorem regWrite_mem_of_ne_cmd {v : Word} {t : State} (hidx : idx ≠ 0x00#6) (ht : exec (.regWrite idx v) s = .next t) :
    t.mem = s.mem := by
  obtain ⟨u, hu, hend⟩ := regWrite_end idx v s
  cases ht.symm.trans hu
  cases hend with
  | fault w f => rfl
  | done hcmd hi hok =>
    rcases hi with rfl | hi
    · cases hcmd
    · cases hi; exact absurd rfl hidx
  | status v => rfl
  | register n v hn => rfl
  | unchanged hregs hmem => exact hmem

end Encoding

/-! ### The statements -/

/-- Settles O1, by instruction: a command by the opcode map at its OP, a host transaction by its packed fields. -/
theorem decodeEncodeAgree : Obligations.DecodeEncodeAgree := by
  intro i
  cases i with
  | regWrite idx v => exact decode_host39_ok.2 (decodeTransaction_pack_write idx v)
  | regRead idx => exact decode_host39_ok.2 (decodeTransaction_pack_read idx 0#32)
  | _ => exact decode_cmd32_ok.2 (decodeCommand_packCommand _)

theorem decode_of_encode {i : Instr} {x : InstrWord} (h : encode i = x) : decode x = .ok i := h ▸ decodeEncodeAgree i

/-- Settles O2: from an encoding back by `decode_of_encode`; to it, by the fields of the word. -/
theorem encodeDecodeAgree : Obligations.EncodeDecodeAgree := by
  refine ⟨fun w i => ⟨fun h => ?_, decode_of_encode⟩, fun t idx v => ⟨fun h => ?_, decode_of_encode⟩, fun t idx => ?_⟩
  · exact encode_of_decodeCommand (decode_cmd32_ok.1 h)
  · exact congrArg InstrWord.host39 (pack_of_decodeTransaction_write (decode_host39_ok.1 h))
  · exact decode_host39_ok.trans decodeTransaction_eq_read_iff

/-- Settles O3, from RSV and OP as fields of the word and from the words the opcode map covers. -/
theorem legalCommandWords : Obligations.LegalCommandWords := fun _ =>
  ⟨legalCommand_iff, (exists_congr fun _ => decode_cmd32_ok).trans exists_decodeCommand_iff,
    fun h => decode_cmd32_error.2 (decodeCommand_of_not_legal h)⟩

/-- Settles O4: each word is the encoding of its instruction. -/
theorem opcodeMapWords : Obligations.OpcodeMapWords :=
  ⟨decode_of_encode rfl, decode_of_encode rfl, decode_of_encode rfl, decode_of_encode rfl, decode_of_encode rfl,
    decode_of_encode rfl, decode_of_encode rfl, decode_of_encode rfl, decode_of_encode rfl, decode_of_encode rfl⟩

/-- Settles O5: each clause is a row of `Pseudo.expand`. -/
theorem pseudoExpansions : Obligations.PseudoExpansions := fun _ _ _ _ =>
  ⟨rfl, rfl, rfl, rfl, rfl, rfl, rfl, rfl, rfl⟩

/-- Settles O6, by `step_transaction`. -/
theorem stepRunsDecodedTransaction : Obligations.StepRunsDecodedTransaction := by
  intro s t rest i hp hd
  rw [step_transaction hp, decode_host39_ok.1 hd]

/-- Settles O7: the step takes the placed transaction, and that transaction runs the word. -/
theorem fetchedTableWordRuns : Obligations.FetchedTableWordRuns := by
  intro s nbits n i h
  have hp : (s.withFetchWord nbits n).pending = .transaction (deliver (tableWord nbits n)) :: s.pending := rfl
  exact (step_transaction hp).trans (exec_deliver (decode_of_decodeTableWord h) s)

/-- Settles O24: no stores in the commit sets of HDR_READ and GEOM_DEFAULT; a transaction by its ends. -/
theorem nonStoringInstructionsKeepMemory : Obligations.NonStoringInstructionsKeepMemory := by
  refine fun s t => ⟨fun i hi ht => ?_, fun idx ht => ?_, fun idx v hidx ht => regWrite_mem_of_ne_cmd hidx ht⟩
  · obtain rfl | rfl : i = .hdrRead ∨ i = .geomDefault := by simpa using hi
    · exact Command.hdrRead.mem_next_of_no_stores hi ht
    · exact Command.geomDefault.mem_next_of_no_stores hi ht
  · cases ht
    exact ⟨rfl, rfl⟩

end Sys2Proof.Machine

/-! ## The host interface: what a read answers, and how a command ends (40_host_interface.md R111 to R115) -/

namespace Sys2Proof.Machine

/-- A read of a register's own index is a read of the register (R24, R111). -/
theorem readIndex_index (r : Regs) (n : Reg) : readIndex r n.index = getReg r n := readIndex_of_regAt (regAt_index n) r

/-- Settles O13: the indices 0x00 to 0x1E are the rows of the register map, in order; the others hold no register. -/
theorem regReadReturns : Obligations.RegReadReturns := by
  intro s
  have row := readIndex_index s.regs
  exact ⟨fun _ => rfl, row .cmd, row .status, row .resultLen, row .lastCmd, row .srcAddr, row .srcLen, row .dstAddr,
    row .dstCap, row .imgW, row .imgH, row .imgBpp, row .planeA, row .planeR, row .planeG, row .planeB, row .blkA,
    row .blkR, row .blkG, row .blkB, row .hdrPackType, row .hdrScrW, row .hdrScrH, row .hdrBpp, row .hdrLeft,
    row .hdrRight, row .hdrTop, row .hdrBottom, row .hdrALen, row .hdrRLen, row .hdrGLen, row .hdrBLen,
    fun _ hi => readIndex_of_reserved (regAt_eq_none_iff.2 hi) s.regs⟩

section CommandEnd

variable {i : Instr} {w : Word} {body : Body} {s t : State}

/-- A command leaves the host's side as it was, at either end. -/
theorem Command.keepsHost_next (h : Command i w body) (ht : exec i s = .next t) : keepsHost s t := by
  rcases h.next_cases ht with ⟨f, rfl⟩ | ⟨c, -, rfl⟩
  · exact ⟨rfl, rfl⟩
  · exact ⟨rfl, rfl⟩

/-- FAULT = 1 after a command only at its fault entry, which writes a listed code, STATUS and LAST_CMD (R115). -/
theorem Command.eq_faultedState_of_fault (h : Command i w body) (ht : exec i s = .next t)
    (hfault : t.regs.status.fault = true) :
    legalFcode t.regs.status.fcode = true ∧ t.regs.status.fcode ≠ 0x00#8 ∧
      t = faultedState w t.regs.status.fcode s := by
  rcases h.next_cases ht with ⟨f, rfl⟩ | ⟨c, -, rfl⟩
  · obtain ⟨hlegal, hne⟩ := code_legal f
    exact ⟨hlegal, hne, rfl⟩
  · cases hfault

/-- FAULT = 0 after a command only at its successful end, which clears FCODE and keeps STICKY (R114). -/
theorem Command.status_of_not_fault (h : Command i w body) (ht : exec i s = .next t)
    (hfault : t.regs.status.fault = false) : t.regs.status = okStatus s.regs.status := by
  rcases h.next_cases ht with ⟨f, rfl⟩ | ⟨c, -, rfl⟩
  · cases hfault
  · rfl

end CommandEnd

/-- Settles O19: the command answers, and FAULT tells which of its two ends it took. -/
theorem commandEnds : Obligations.CommandEnds := by
  intro i w s hi
  obtain ⟨body, h⟩ := Command.of_encode hi
  have ht := h.exec_eq s
  exact ⟨_, ht, h.lastCmd_next ht, h.keepsHost_next ht, h.eq_faultedState_of_fault ht, h.status_of_not_fault ht⟩

end Sys2Proof.Machine

/-! ## ChannelRLE: the two functions (41_rle.md R130 to R137) -/

namespace Sys2Proof.Machine

/-! ### Count bytes (R130) -/

/-- The repeat flag of a count byte is its high bit. -/
theorem repeatFlag_iff {h : Byte} : h.getLsbD 7 = true ↔ 128 ≤ h.toNat := by
  have hmsb : h.msb = h.getLsbD 7 := BitVec.msb_eq_getLsbD_last h
  rw [← hmsb, BitVec.msb_eq_decide, decide_eq_true_iff]

theorem repeatFlag_false_iff {h : Byte} : h.getLsbD 7 = false ↔ h.toNat < 128 := by
  rw [← Bool.not_eq_true, repeatFlag_iff, not_le]

theorem literalByte_toNat {n : Nat} (hn : n < 128) : (BitVec.ofNat 8 n).toNat = n := by
  rw [BitVec.toNat_ofNat, Nat.mod_eq_of_lt (by omega)]

theorem repeatByte_toNat {c : Nat} (hc : c < 128) : (0x80#8 ||| BitVec.ofNat 8 c).toNat = 128 + c := by
  have hor : 2 ^ 7 * 1 + c = 2 ^ 7 * 1 ||| c := Nat.two_pow_add_eq_or_of_lt hc 1
  rw [BitVec.toNat_or, literalByte_toNat hc]
  exact hor.symm

/-! ### Decode, run by run (R135 to R137) -/

section Decode

variable {h : Byte} {b rest : List Byte} {r : Run} {rs : List Run}

theorem decodeRuns_repeat (hflag : h.getLsbD 7 = true) (v : Byte) (rest : List Byte) :
    decodeRuns (h :: v :: rest) = (decodeRuns rest).map (.rep (h.toNat % 128) v :: ·) := by
  unfold decodeRuns
  rw [List.length_cons, readRuns_cons, if_pos hflag, BitVec.extractLsb'_toNat]
  exact congrArg (Option.map _) (readRuns_fuel (Nat.le_succ _) (le_refl _))

theorem decodeRuns_literal (hflag : h.getLsbD 7 = false) (hlen : h.toNat ≤ rest.length) :
    decodeRuns (h :: rest) = (decodeRuns (rest.drop h.toNat)).map (.lit (rest.take h.toNat) :: ·) := by
  unfold decodeRuns
  rw [List.length_cons, readRuns_cons, if_neg (Bool.eq_false_iff.1 hflag), if_neg (Nat.not_lt.2 hlen)]
  exact congrArg _ (readRuns_fuel (by rw [List.length_drop]; exact Nat.sub_le _ _) (le_refl _))

/-- Decode concatenates what the runs mean (R135). -/
theorem rleDecode_of_decodeRuns (hruns : decodeRuns b = (decodeRuns rest).map (r :: ·)) :
    rleDecode b = (rleDecode rest).map (r.expand ++ ·) := by
  unfold rleDecode
  rw [hruns, Option.map_map, Option.map_map]
  rfl

theorem rleDecode_repeat (hflag : h.getLsbD 7 = true) (v : Byte) (rest : List Byte) :
    rleDecode (h :: v :: rest) = (rleDecode rest).map (List.replicate (h.toNat % 128) v ++ ·) :=
  rleDecode_of_decodeRuns (decodeRuns_repeat hflag v rest)

theorem rleDecode_literal (hflag : h.getLsbD 7 = false) (hlen : h.toNat ≤ rest.length) :
    rleDecode (h :: rest) = (rleDecode (rest.drop h.toNat)).map (rest.take h.toNat ++ ·) :=
  rleDecode_of_decodeRuns (decodeRuns_literal hflag hlen)

/-- The value bytes of the run that begins with h would lie past the end of the stream (R136). -/
def ValueBytesMissing (h : Byte) (tail : List Byte) : Prop :=
  (h.getLsbD 7 = true ∧ tail = []) ∨ (h.getLsbD 7 = false ∧ tail.length < h.toNat)

theorem rleDecode_of_valueBytesMissing (hcut : ValueBytesMissing h rest) : rleDecode (h :: rest) = none := by
  unfold rleDecode decodeRuns
  rw [List.length_cons, readRuns_cons]
  rcases hcut with ⟨hflag, rfl⟩ | ⟨hflag, hlen⟩
  · rw [if_pos hflag]; rfl
  · rw [if_neg (Bool.eq_false_iff.1 hflag), if_pos hlen]; rfl

/-- Decode of a stream that begins with a run, whatever its count up to 127. -/
theorem rleDecode_run_append (hr : r.count < 128) (b : List Byte) :
    rleDecode (r.bytes ++ b) = (rleDecode b).map (r.expand ++ ·) := by
  cases r with
  | rep c v =>
    replace hr : c < 128 := hr
    have hbyte : (0x80#8 ||| BitVec.ofNat 8 c).toNat = 128 + c := repeatByte_toNat hr
    have hcount : (0x80#8 ||| BitVec.ofNat 8 c).toNat % 128 = c := by
      rw [hbyte, Nat.add_mod_left, Nat.mod_eq_of_lt hr]
    have hdec := rleDecode_repeat (repeatFlag_iff.2 (hbyte ▸ Nat.le_add_right 128 c)) v b
    rwa [hcount] at hdec
  | lit bs =>
    replace hr : bs.length < 128 := hr
    have hbyte : (BitVec.ofNat 8 bs.length).toNat = bs.length := literalByte_toNat hr
    have hdec := rleDecode_literal (rest := bs ++ b) (repeatFlag_false_iff.2 (hbyte.trans_lt hr))
      (by rw [hbyte, List.length_append]; exact Nat.le_add_right _ _)
    rwa [hbyte, List.drop_left, List.take_left] at hdec

theorem rleDecode_runs_append (hrs : ∀ r ∈ rs, r.count < 128) (b : List Byte) :
    rleDecode (rs.flatMap Run.bytes ++ b) = (rleDecode b).map (rs.flatMap Run.expand ++ ·) := by
  induction rs with
  | nil => simp only [List.flatMap_nil, List.nil_append, Option.map_id']
  | cons r rs ih =>
    rw [List.forall_mem_cons] at hrs
    rw [List.flatMap_cons, List.append_assoc, rleDecode_run_append hrs.1, ih hrs.2, Option.map_map]
    simp only [List.flatMap_cons, List.append_assoc, Function.comp_def]

theorem rleDecode_runs (hrs : ∀ r ∈ rs, r.count < 128) :
    rleDecode (rs.flatMap Run.bytes) = some (rs.flatMap Run.expand) := by
  have hdec := rleDecode_runs_append hrs []
  rwa [List.append_nil, show rleDecode [] = some [] from rfl, Option.map_some, List.append_nil] at hdec

/-- How a stream goes on: a run whose value bytes are missing, or a whole run and what follows it. -/
theorem stream_cons_cases (h : Byte) (tail : List Byte) :
    ValueBytesMissing h tail ∨ ∃ r b, r.count < 128 ∧ h :: tail = Run.bytes r ++ b := by
  cases hflag : h.getLsbD 7 with
  | true =>
    cases tail with
    | nil => exact .inl (.inl ⟨hflag, rfl⟩)
    | cons v b =>
      have hh : h = 0x80#8 ||| BitVec.ofNat 8 (h.toNat % 128) := by
        apply BitVec.eq_of_toNat_eq
        rw [repeatByte_toNat (Nat.mod_lt _ (by decide))]
        have := repeatFlag_iff.1 hflag
        have := h.isLt
        omega
      exact .inr ⟨.rep (h.toNat % 128) v, b, Nat.mod_lt _ (by decide), congrArg (· :: v :: b) hh⟩
  | false =>
    rcases Nat.lt_or_ge tail.length h.toNat with hlen | hlen
    · exact .inl (.inr ⟨hflag, hlen⟩)
    · have htake : (tail.take h.toNat).length = h.toNat := List.length_take_of_le hlen
      refine .inr ⟨.lit (tail.take h.toNat), tail.drop h.toNat, ?_, ?_⟩
      · exact htake.trans_lt (repeatFlag_false_iff.1 hflag)
      · simp only [Run.bytes, htake, BitVec.ofNat_toNat, BitVec.setWidth_eq, List.cons_append, List.take_append_drop]

theorem Run.bytes_ne_nil (r : Run) : r.bytes ≠ [] := by
  cases r <;> exact List.cons_ne_nil _ _

/-- A malformed stream is whole runs and then one whose value bytes are missing (R136). -/
theorem exists_valueBytesMissing_of_rleDecode_none (hb : rleDecode b = none) :
    ∃ (rs : List Run) (h : Byte) (tail : List Byte), (∀ r ∈ rs, r.count < 128) ∧
      b = rs.flatMap Run.bytes ++ h :: tail ∧ ValueBytesMissing h tail := by
  induction hn : b.length using Nat.strong_induction_on generalizing b with
  | _ n ih =>
    cases b with
    | nil => cases hb
    | cons h tail =>
      rcases stream_cons_cases h tail with hcut | ⟨r, b, hr, heq⟩
      · exact ⟨[], h, tail, nofun, rfl, hcut⟩
      · rw [heq, rleDecode_run_append hr, Option.map_eq_none_iff] at hb
        have hlt : b.length < n := by
          have := List.length_pos_of_ne_nil r.bytes_ne_nil
          rw [← hn, heq, List.length_append]
          omega
        obtain ⟨rs, h', tail', hrs, rfl, hcut⟩ := ih _ hlt hb rfl
        exact ⟨r :: rs, h', tail', List.forall_mem_cons.2 ⟨hr, hrs⟩,
          by rw [heq, List.flatMap_cons, List.append_assoc], hcut⟩

end Decode

/-- Settles O33: the first run of the stream, by its flag and by whether its value bytes are there. -/
theorem decodeRunByRun : Obligations.DecodeRunByRun :=
  ⟨rfl, fun _ hflag => rleDecode_of_valueBytesMissing (.inl ⟨hflag, rfl⟩),
    fun _ v rest hflag => rleDecode_repeat hflag v rest,
    fun _ _ hflag hlen => rleDecode_of_valueBytesMissing (.inr ⟨hflag, hlen⟩),
    fun _ _ hflag hlen => rleDecode_literal hflag hlen⟩

/-- Settles O34: whole runs decode, so Decode answers none exactly when it meets a run whose value bytes are missing. -/
theorem malformedStreamIff : Obligations.MalformedStreamIff := by
  refine ⟨by decide, by decide, fun b => ⟨exists_valueBytesMissing_of_rleDecode_none, ?_⟩⟩
  rintro ⟨rs, h, tail, hrs, rfl, hcut⟩
  rw [rleDecode_runs_append hrs, rleDecode_of_valueBytesMissing hcut]
  rfl

/-! ### Encode, run by run (R131 to R134) -/

/-- No two adjacent elements are equal. -/
def NoAdjacentEqual (bs : List Byte) : Prop := ∀ k, k + 1 < bs.length → bs[k + 1]? ≠ bs[k]?

/-- The runs that R131 to R134 allow for an input: a repeat run takes 2 to 127 equal elements; a literal run takes 2 to
127 elements with no two adjacent ones equal, or the last element alone. -/
inductive Scan : List Byte → List Run → Prop
  | nil : Scan [] []
  | rep {c : Nat} {v : Byte} {s : List Byte} {rs : List Run} (hmin : 2 ≤ c) (hmax : c ≤ 127) (hs : Scan s rs) :
      Scan (List.replicate c v ++ s) (.rep c v :: rs)
  | lit {bs s : List Byte} {rs : List Run} (hmin : 2 ≤ bs.length) (hmax : bs.length ≤ 127) (hne : NoAdjacentEqual bs)
      (hs : Scan s rs) : Scan (bs ++ s) (.lit bs :: rs)
  | last (b : Byte) : Scan [b] [.lit [b]]

section Encode

variable {s : List Byte} {rs : List Run}

/-- A repeat run takes the element that begins it and the next one, which is equal (R132). -/
theorem repeatExtent_pos (v : Byte) (rest : List Byte) : 1 ≤ repeatExtent v 126 (v :: rest) := by
  unfold repeatExtent
  rw [if_pos rfl]
  exact Nat.le_add_left 1 _

theorem literalRun_length (v : Byte) (rest : List Byte) :
    (v :: rest.take (literalExtent v 126 rest)).length = literalExtent v 126 rest + 1 := by
  rw [List.length_cons, List.length_take_of_le (literalExtent_le_length v 126 rest)]

/-- The elements of a literal run, in the run as in the input (R133). -/
theorem noAdjacentEqual_literalRun (v : Byte) (rest : List Byte) :
    NoAdjacentEqual (v :: rest.take (literalExtent v 126 rest)) := by
  intro k hk
  rw [literalRun_length] at hk
  rw [← List.take_succ_cons, List.getElem?_take_of_lt hk, List.getElem?_take_of_lt (by omega)]
  exact literalExtent_ne v 126 rest k (by omega)

/-- Encode's runs are a scan of its input. -/
theorem encodeRuns_scan (s : List Byte) : Scan s (encodeRuns s) := by
  induction hn : s.length using Nat.strong_induction_on generalizing s with
  | _ n ih =>
    cases s with
    | nil => exact .nil
    | cons v rest =>
      have ih_drop (k : Nat) : Scan (rest.drop k) (encodeRuns (rest.drop k)) :=
        ih _ (by rw [← hn, List.length_drop, List.length_cons]; omega) _ rfl
      by_cases hrep : rest.head? = some v
      · obtain ⟨rest, rfl⟩ := List.head?_eq_some_iff.1 hrep
        have hsplit := congrArg (v :: ·) (List.take_append_drop (repeatExtent v 126 (v :: rest)) (v :: rest)).symm
        rw [take_repeatExtent, ← List.cons_append, ← List.replicate_succ] at hsplit
        rw [encodeRuns_repeat]
        nth_rw 1 [hsplit]
        exact .rep (Nat.succ_le_succ (repeatExtent_pos v rest)) (Nat.succ_le_succ (repeatExtent_le_cap v 126 _))
          (ih_drop _)
      · rw [encodeRuns_literal v rest hrep]
        cases rest with
        | nil => exact .last v
        | cons b rest =>
          have hpos := literalExtent_pos v _ hrep (List.cons_ne_nil b rest)
          have hcap := literalExtent_le_cap v 126 (b :: rest)
          have hlen := literalRun_length v (b :: rest)
          have hscan := Scan.lit (by omega) (by omega) (noAdjacentEqual_literalRun v (b :: rest))
            (ih_drop (literalExtent v 126 (b :: rest)))
          rwa [List.cons_append, List.take_append_drop] at hscan

/-- The runs of a scan mean its input. -/
theorem Scan.flatMap_expand (hs : Scan s rs) : rs.flatMap Run.expand = s := by
  induction hs with
  | nil => rfl
  | rep _ _ _ ih => rw [List.flatMap_cons, ih]; rfl
  | lit _ _ _ _ ih => rw [List.flatMap_cons, ih]; rfl
  | last b => rfl

/-- R134 (a). -/
theorem Scan.count_bounds (hs : Scan s rs) : ∀ r ∈ rs, 1 ≤ r.count ∧ r.count ≤ 127 := by
  induction hs with
  | nil => nofun
  | rep hmin hmax _ ih => exact List.forall_mem_cons.2 ⟨⟨Nat.le_of_succ_le hmin, hmax⟩, ih⟩
  | lit hmin hmax _ _ ih => exact List.forall_mem_cons.2 ⟨⟨Nat.le_of_succ_le hmin, hmax⟩, ih⟩
  | last b => exact List.forall_mem_singleton.2 ⟨le_refl 1, Nat.le_add_left 1 126⟩

/-- R134 (b). -/
theorem Scan.two_le_of_rep (hs : Scan s rs) {c : Nat} {v : Byte} (hr : .rep c v ∈ rs) : 2 ≤ c := by
  induction hs with
  | nil => cases hr
  | rep hmin _ _ ih =>
    rcases List.mem_cons.1 hr with heq | hr
    · cases heq; exact hmin
    · exact ih hr
  | lit _ _ _ _ ih => exact ih ((List.mem_cons.1 hr).resolve_left nofun)
  | last b => exact absurd (List.mem_singleton.1 hr) nofun

theorem Scan.exists_tail {r : Run} (hs : Scan s (r :: rs)) : ∃ a s', s = a ++ s' ∧ Scan s' rs := by
  cases hs with
  | rep _ _ hs => exact ⟨_, _, rfl, hs⟩
  | lit _ _ _ hs => exact ⟨_, _, rfl, hs⟩
  | last b => exact ⟨[b], [], rfl, .nil⟩

/-- What follows some of the runs of a scan is the scan of what follows their elements. -/
theorem Scan.exists_suffix {pre post : List Run} (hs : Scan s (pre ++ post)) : ∃ a s', s = a ++ s' ∧ Scan s' post := by
  induction pre generalizing s with
  | nil => exact ⟨[], s, rfl, hs⟩
  | cons r pre ih =>
    obtain ⟨a, s', rfl, hs'⟩ := hs.exists_tail
    obtain ⟨a', s'', rfl, hs''⟩ := ih hs'
    exact ⟨a ++ a', s'', (List.append_assoc a a' s'').symm, hs''⟩

/-- R134 (c). -/
theorem Scan.literal_run {pre post : List Run} {bs : List Byte} (hs : Scan s (pre ++ .lit bs :: post)) :
    (2 ≤ bs.length ∨ (post = [] ∧ ∃ b, bs = [b] ∧ s.getLast? = some b)) ∧ NoAdjacentEqual bs := by
  obtain ⟨a, s', rfl, hs'⟩ := hs.exists_suffix
  cases hs' with
  | lit hmin _ hne _ => exact ⟨.inl hmin, hne⟩
  | last b =>
    refine ⟨.inr ⟨rfl, b, rfl, List.getLast?_concat⟩, fun k hk => ?_⟩
    exact absurd hk (Nat.not_lt.2 (Nat.le_add_left 1 k))

@[simp] theorem Run.bytes_rep_length (c : Nat) (v : Byte) : (Run.rep c v).bytes.length = 2 := rfl
@[simp] theorem Run.bytes_lit_length (bs : List Byte) : (Run.lit bs).bytes.length = bs.length + 1 := rfl

/-- R134 (d): each run but a last one of one element takes at most three bytes for two elements. -/
theorem Scan.two_mul_bytes_length_le (hs : Scan s rs) : 2 * (rs.flatMap Run.bytes).length ≤ 3 * s.length + 1 := by
  induction hs with
  | nil => exact Nat.zero_le _
  | rep hmin _ _ ih =>
    rw [List.flatMap_cons, List.length_append, List.length_append, Run.bytes_rep_length, List.length_replicate]
    omega
  | lit hmin _ _ _ ih =>
    rw [List.flatMap_cons, List.length_append, List.length_append, Run.bytes_lit_length]
    omega
  | last b => exact le_refl 4

/-- R134 (e): the first run has a count byte and a value byte. -/
theorem Scan.two_le_bytes_length (hs : Scan s rs) (hne : s ≠ []) : 2 ≤ (rs.flatMap Run.bytes).length := by
  cases hs with
  | nil => exact absurd rfl hne
  | rep _ _ _ => rw [List.flatMap_cons, List.length_append, Run.bytes_rep_length]; omega
  | lit _ _ _ _ => rw [List.flatMap_cons, List.length_append, Run.bytes_lit_length]; omega
  | last b => exact le_refl 2

theorem rleEncode_of_encodeRuns {r : Run} {rest : List Byte} (hruns : encodeRuns s = r :: encodeRuns rest) :
    rleEncode s = r.bytes ++ rleEncode rest := by
  unfold rleEncode
  rw [hruns, List.flatMap_cons]

/-- R140: Decode of Encode is the identity, since Encode's runs are whole and mean its input. -/
theorem rleDecode_rleEncode (s : List Byte) : rleDecode (rleEncode s) = some s := by
  have hs := encodeRuns_scan s
  have hdec := rleDecode_runs fun r hr => Nat.lt_succ_of_le (hs.count_bounds r hr).2
  rwa [hs.flatMap_expand] at hdec

end Encode

/-- Settles O30, with the run's count one more than the extent of its value in what follows. -/
theorem encodeRepeatRun : Obligations.EncodeRepeatRun := by
  intro v rest
  have hcap := repeatExtent_le_cap v 126 (v :: rest)
  refine ⟨repeatExtent v 126 (v :: rest) + 1, Nat.succ_le_succ (repeatExtent_pos v rest), Nat.succ_le_succ hcap, ?_, ?_,
    rleEncode_of_encodeRuns (encodeRuns_repeat v rest)⟩
  · rw [List.take_succ_cons, take_repeatExtent, List.replicate_succ]
  · rcases hcap.lt_or_eq with hlt | heq
    · exact .inr (head_drop_repeatExtent v 126 (v :: rest) hlt)
    · exact .inl (congrArg (· + 1) heq)

/-- Settles O31, with the run's count one more than the extent of the literal run after its first element. -/
theorem encodeLiteralRun : Obligations.EncodeLiteralRun := by
  refine ⟨rfl, fun v rest hhead => ?_⟩
  have hcap := literalExtent_le_cap v 126 rest
  have hlen := literalExtent_le_length v 126 rest
  refine ⟨literalExtent v 126 rest + 1, Nat.le_add_left 1 _, Nat.succ_le_succ hcap, Nat.succ_le_succ hlen, ?_, ?_, ?_⟩
  · rintro (_ | k) hpos hk
    · exact absurd hpos (Nat.lt_irrefl 0)
    · exact literalExtent_ne v 126 rest k (Nat.lt_of_succ_lt_succ hk)
  · rcases hcap.lt_or_eq with hlt | heq
    · rcases hlen.lt_or_eq with hlt' | heq'
      · exact .inr (.inr (literalExtent_stops v 126 rest hlt hlt'))
      · exact .inr (.inl (congrArg (· + 1) heq'))
    · exact .inl (congrArg (· + 1) heq)
  · rw [rleEncode_of_encodeRuns (encodeRuns_literal v rest hhead), Run.bytes, literalRun_length]
    rfl

/-- Settles O32: the properties of every scan, and the rule's example. -/
theorem encodeProperties : Obligations.EncodeProperties := by
  refine ⟨fun s => (encodeRuns_scan s).count_bounds, fun s c v hr => (encodeRuns_scan s).two_le_of_rep hr,
    fun s pre post bs hs => (hs ▸ encodeRuns_scan s : Scan s (pre ++ .lit bs :: post)).literal_run, fun s _ => ?_, rfl,
    by decide, fun s hne => (encodeRuns_scan s).two_le_bytes_length hne⟩
  have hlen : 2 * (rleEncode s).length ≤ 3 * s.length + 1 := (encodeRuns_scan s).two_mul_bytes_length_le
  omega

/-- The count byte of a run of 1 to 127 elements names no zero count (R137). -/
theorem Run.bytes_head?_ne_zeroCount {r : Run} (hmin : 1 ≤ r.count) (hmax : r.count ≤ 127) :
    r.bytes.head? ≠ some 0x00#8 ∧ r.bytes.head? ≠ some 0x80#8 := by
  obtain ⟨h, hh, h0, h128⟩ : ∃ h : Byte, r.bytes.head? = some h ∧ h.toNat ≠ 0 ∧ h.toNat ≠ 128 := by
    cases r with
    | rep c v =>
      replace hmin : 1 ≤ c := hmin
      have hbyte := repeatByte_toNat (Nat.lt_succ_of_le hmax : c < 128)
      exact ⟨_, rfl, by omega, by omega⟩
    | lit bs =>
      replace hmin : 1 ≤ bs.length := hmin
      replace hmax : bs.length ≤ 127 := hmax
      have hbyte := literalByte_toNat (Nat.lt_succ_of_le hmax)
      exact ⟨_, rfl, by omega, by omega⟩
  rw [hh, Ne, Ne, Option.some.injEq, Option.some.injEq]
  exact ⟨fun he => h0 (he ▸ rfl), fun he => h128 (he ▸ rfl)⟩

/-- Settles O35: zero counts on decode are runs like others, and the counts of Encode are 1 to 127. -/
theorem zeroCountsEmitNothing : Obligations.ZeroCountsEmitNothing := by
  have hid (b : List Byte) : (rleDecode b).map ([] ++ ·) = rleDecode b := by
    simp only [List.nil_append, Option.map_id']
  refine ⟨fun rest => ?_, fun v rest => ?_, rfl, fun s r hr => ?_⟩
  · exact (rleDecode_run_append (r := .lit []) (by decide) rest).trans (hid rest)
  · exact (rleDecode_run_append (r := .rep 0 v) (Nat.zero_lt_succ 127) rest).trans (hid rest)
  · obtain ⟨hmin, hmax⟩ := (encodeRuns_scan s).count_bounds r hr
    exact Run.bytes_head?_ne_zeroCount hmin hmax

end Sys2Proof.Machine

/-! ## RLE_ENC and RLE_DEC (41_rle.md R138 to R140) -/

namespace Sys2Proof.Machine

section CommandResult

variable {i : Instr} {w : Word} {body : Body} {s : State}

/-- A command whose body faults ends in the fault entry (60_exceptions.md R221). -/
theorem Command.exec_of_error (h : Command i w body) {f : BlockFault} (hf : body s.regs s.mem = .error f) :
    exec i s = .next (faultedState w f.code s) := by
  rw [h.exec_eq, runCommand_error hf]

/-- A command whose commit set is one list of bytes and no register writes that list, and no other byte; of the
registers only RESULT_LEN, STATUS and LAST_CMD change (40_host_interface.md R114). -/
theorem Command.exec_of_one_store (h : Command i w body) (hmem : Memory.wf s.mem = true) {a n : Nat} {out : List Byte}
    (hok : body s.regs s.mem = .ok { stores := [(a, out)], regWrites := [], result := n }) :
    ∃ t, exec i s = .next t ∧ memRead t.mem a out.length = out ∧ unchangedOutside ⟨a, out.length⟩ s.mem t.mem ∧
      t.regs = completedRegs w n s.regs ∧ keepsHost s t := by
  have hrange : a + out.length ≤ Config.memSize :=
    inRange_iff.1 (h.stores_inRange hok (a, out) (List.mem_singleton_self _))
  refine ⟨_, (h.exec_eq s).trans (congrArg _ (runCommand_ok hok)), memRead_memWrite_self hmem hrange,
    fun x hx => readByte_memWrite_outside hmem hrange ?_, rfl, rfl, rfl⟩
  simp only [Range.mem] at hx
  omega

/-- Every command keeps the canonical form of the memory. -/
theorem Command.wf_next (h : Command i w body) {t : State} (hmem : Memory.wf s.mem = true) (ht : exec i s = .next t) :
    Memory.wf t.mem = true := by
  rcases h.next_cases ht with ⟨f, rfl⟩ | ⟨c, hok, rfl⟩
  · exact hmem
  · exact Memory.wf_applyStores hmem (h.stores_inRange hok)

end CommandResult

section OneSourceOneDestination

variable {x d : Range}

theorem checkRanges_pair_addressRange (h : x.inRange = false ∨ d.inRange = false) :
    checkRanges [x] [d] = some .addressRange := by
  rcases h with h | h
  · exact checkRanges_addressRange (.inl (List.mem_singleton_self x)) h
  · exact checkRanges_addressRange (.inr (List.mem_singleton_self d)) h

theorem checkRanges_pair_bufferOverlap (hx : x.inRange = true) (hd : d.inRange = true) (ho : d.overlaps x = true) :
    checkRanges [x] [d] = some .bufferOverlap :=
  checkRanges_bufferOverlap (List.forall_mem_singleton.2 hx) (List.forall_mem_singleton.2 hd)
    (.inl ⟨d, List.mem_singleton_self d, x, List.mem_singleton_self x, ho⟩)

theorem checkRanges_pair_none :
    checkRanges [x] [d] = none ↔ x.inRange = true ∧ d.inRange = true ∧ d.overlaps x = false := by
  simp [checkRanges_none]

end OneSourceOneDestination

section RleBodies

variable {r : Regs} {m : Memory} {f : BlockFault}

theorem rleEncBody_of_checkRanges (hc : checkRanges [srcRange r] [dstRange r] = some f) :
    rleEncBody r m = .error f := by
  unfold rleEncBody
  rw [hc]

theorem rleEncBody_outputOverflow (hc : checkRanges [srcRange r] [dstRange r] = none)
    (hlen : r.dstCap.toNat < (encOut r m).length) : rleEncBody r m = .error .outputOverflow := by
  unfold rleEncBody
  rw [hc]
  exact if_pos hlen

theorem rleDecBody_of_checkRanges (hc : checkRanges [srcRange r] [dstRange r] = some f) :
    rleDecBody r m = .error f := by
  unfold rleDecBody
  rw [hc]

theorem rleDecBody_malformedStream (hc : checkRanges [srcRange r] [dstRange r] = none)
    (hdec : rleDecode (memRead m r.srcAddr.toNat r.srcLen.toNat) = none) :
    rleDecBody r m = .error .malformedStream := by
  unfold rleDecBody
  rw [hc, hdec]

theorem rleDecBody_outputOverflow (hc : checkRanges [srcRange r] [dstRange r] = none) {out : List Byte}
    (hdec : rleDecode (memRead m r.srcAddr.toNat r.srcLen.toNat) = some out) (hlen : r.dstCap.toNat < out.length) :
    rleDecBody r m = .error .outputOverflow := by
  unfold rleDecBody
  rw [hc, hdec]
  exact if_pos hlen

end RleBodies

/-- Settles O28: each clause is one end of the body. -/
theorem rleEncFollowsItsRule : Obligations.RleEncFollowsItsRule := by
  intro s hmem src dst out
  refine ⟨fun h => Command.rleEnc.exec_of_error (rleEncBody_of_checkRanges (checkRanges_pair_addressRange h)),
    fun hsrc hdst => ⟨fun ho => ?_, fun ho => ?_⟩⟩
  · exact Command.rleEnc.exec_of_error (rleEncBody_of_checkRanges (checkRanges_pair_bufferOverlap hsrc hdst ho))
  · have hc := checkRanges_pair_none.2 ⟨hsrc, hdst, ho⟩
    exact ⟨fun hlen => Command.rleEnc.exec_of_error (rleEncBody_outputOverflow hc hlen),
      fun hlen => Command.rleEnc.exec_of_one_store hmem (rleEncBody_ok.2 ⟨hc, hlen, rfl⟩)⟩

/-- RLE_DEC of a stream that decodes, within the destination's capacity (R139). -/
theorem rleDec_success {s : State} (hmem : Memory.wf s.mem = true) (hsrc : (srcRange s.regs).inRange = true)
    (hdst : (dstRange s.regs).inRange = true) (ho : (dstRange s.regs).overlaps (srcRange s.regs) = false)
    {out : List Byte} (hdec : rleDecode (memRead s.mem s.regs.srcAddr.toNat s.regs.srcLen.toNat) = some out)
    (hlen : out.length ≤ s.regs.dstCap.toNat) :
    ∃ t, exec .rleDec s = .next t ∧ memRead t.mem s.regs.dstAddr.toNat out.length = out ∧
      unchangedOutside ⟨s.regs.dstAddr.toNat, out.length⟩ s.mem t.mem ∧
      t.regs = completedRegs 0x00000002#32 out.length s.regs ∧ keepsHost s t :=
  Command.rleDec.exec_of_one_store hmem
    (rleDecBody_ok.2 ⟨checkRanges_pair_none.2 ⟨hsrc, hdst, ho⟩, out, hdec, hlen, rfl⟩)

/-- Settles O29: each clause is one end of the body. -/
theorem rleDecFollowsItsRule : Obligations.RleDecFollowsItsRule := by
  intro s hmem src dst r
  refine ⟨fun h => Command.rleDec.exec_of_error (rleDecBody_of_checkRanges (checkRanges_pair_addressRange h)),
    fun hsrc hdst => ⟨fun ho => ?_, fun ho => ?_⟩⟩
  · exact Command.rleDec.exec_of_error (rleDecBody_of_checkRanges (checkRanges_pair_bufferOverlap hsrc hdst ho))
  · have hc := checkRanges_pair_none.2 ⟨hsrc, hdst, ho⟩
    refine ⟨fun hdec => Command.rleDec.exec_of_error (rleDecBody_malformedStream hc hdec), fun out hdec => ?_⟩
    exact ⟨fun hlen => Command.rleDec.exec_of_error (rleDecBody_outputOverflow hc hdec hlen),
      rleDec_success hmem hsrc hdst ho hdec⟩

/-- A success of RLE_ENC leaves the encoded plane at DST_ADDR, in range, with its length in RESULT_LEN (R138). -/
theorem rleEnc_success {s t : State} (hmem : Memory.wf s.mem = true) (ht : exec .rleEnc s = .next t)
    (hfault : t.regs.status.fault = false) :
    (Range.mk s.regs.dstAddr.toNat t.regs.resultLen.toNat).inRange = true ∧
      memRead t.mem s.regs.dstAddr.toNat t.regs.resultLen.toNat = encOut s.regs s.mem := by
  rcases Command.rleEnc.next_cases ht with ⟨f, rfl⟩ | ⟨c, hok, -⟩
  · cases hfault
  · have hranges := Command.rleEnc.stores_inRange hok
    obtain ⟨-, hlen, rfl⟩ := rleEncBody_ok.1 hok
    obtain ⟨u, hu, hread, -, hregs, -⟩ := Command.rleEnc.exec_of_one_store hmem hok
    cases ht.symm.trans hu
    have hresult : t.regs.resultLen.toNat = (encOut s.regs s.mem).length := by
      rw [hregs, completedRegs, BitVec.toNat_ofNat, Nat.mod_eq_of_lt (hlen.trans_lt s.regs.dstCap.isLt)]
    rw [hresult]
    exact ⟨hranges _ (List.mem_singleton_self _), hread⟩

/-- t after the host has written the operands of the next ChannelRLE command (10_state.md R32, R33). -/
def State.withRleOperands (t : State) (src len dst cap : Word) : State :=
  { t with regs := { t.regs with srcAddr := src, srcLen := len, dstAddr := dst, dstCap := cap } }

/-- Settles O36: Decode of Encode is the identity, and RLE_DEC decodes the stream that RLE_ENC left. -/
theorem rleRoundTrip : Obligations.RleRoundTrip := by
  refine ⟨rleDecode_rleEncode, ?_, [0x02#8, 0x05#8, 0x05#8], [0x05#8, 0x05#8], by decide, by decide⟩
  intro s t d cap hmem ht hfault hdst hapart hcap
  have htmem := Command.rleEnc.wf_next hmem ht
  obtain ⟨hsrc, hstream⟩ := rleEnc_success hmem ht hfault
  have hplane : rleDecode (memRead t.mem s.regs.dstAddr.toNat t.regs.resultLen.toNat) =
      some (memRead s.mem s.regs.srcAddr.toNat s.regs.srcLen.toNat) := by
    rw [hstream, rleDecode_rleEncode]
  obtain ⟨u, hu, hread, -, hregs, -⟩ := rleDec_success
    (s := t.withRleOperands s.regs.dstAddr t.regs.resultLen d cap) htmem hsrc hdst hapart hplane
    (by rwa [memRead_length])
  rw [memRead_length] at hread hregs
  refine ⟨u, hu, ?_, ?_, hread⟩
  · rw [hregs]; rfl
  · rw [hregs, completedRegs, BitVec.ofNat_toNat, BitVec.setWidth_eq]

end Sys2Proof.Machine

/-! ## PixelPlanarizer (42_planar.md R160 to R166) -/

namespace Sys2Proof.Machine

/-! ### Pixels by their number -/

/-- The element of a plane that belongs to pixel k of the image, pixels numbered row by row from the top; a plane's rows
run from bottom to top (R161). -/
def planePlace (w h k : Nat) : Nat := planeIndex w h (k % w) (k / w)

/-- The address of the byte of channel c of pixel k in the channel's plane. -/
def planeAddr (r : Regs) (c : Channel) (k : Nat) : Nat :=
  (planeReg r c).toNat + planePlace r.imgW.toNat r.imgH.toNat k

section Places

variable {w h x y k : Nat}

theorem pixel_lt (hx : x < w) (hy : y < h) : y * w + x < w * h :=
  calc y * w + x < y * w + w := Nat.add_lt_add_left hx _
    _ = (y + 1) * w := (Nat.succ_mul y w).symm
    _ ≤ h * w := Nat.mul_le_mul_right w hy
    _ = w * h := Nat.mul_comm h w

theorem exists_pixel (hk : k < w * h) : ∃ x y, x < w ∧ y < h ∧ k = y * w + x := by
  have hw : 0 < w := Nat.pos_of_mul_pos_right (Nat.zero_lt_of_lt hk)
  exact ⟨k % w, k / w, Nat.mod_lt k hw, Nat.div_lt_of_lt_mul hk, (Nat.div_add_mod' k w).symm⟩

theorem planePlace_pixel (hx : x < w) (y : Nat) : planePlace w h (y * w + x) = (h - 1 - y) * w + x := by
  have hrow : (y * w + x) / w = y := by
    rw [Nat.add_comm, Nat.add_mul_div_right _ _ (Nat.zero_lt_of_lt hx), Nat.div_eq_of_lt hx, Nat.zero_add]
  rw [planePlace, planeIndex, hrow, Nat.mul_add_mod_of_lt hx]

theorem planePlace_lt (hk : k < w * h) : planePlace w h k < w * h := by
  obtain ⟨x, y, hx, hy, rfl⟩ := exists_pixel hk
  rw [planePlace_pixel hx]
  exact pixel_lt hx (by omega)

/-- Turning the rows over twice is the identity. -/
theorem planePlace_planePlace (hk : k < w * h) : planePlace w h (planePlace w h k) = k := by
  obtain ⟨x, y, hx, hy, rfl⟩ := exists_pixel hk
  rw [planePlace_pixel hx, planePlace_pixel hx, show h - 1 - (h - 1 - y) = y by omega]

end Places

/-! ### The bytes a split and a merge write -/

section Bytes

variable {m : Memory} {w h k : Nat} {cs : List Channel}

theorem Channel.off_lt (c : Channel) : c.off < 4 := by cases c <;> decide

theorem pixelByte_lt {n : Nat} (hk : k < n) (c : Channel) : 4 * k + c.off < 4 * n := by
  have hoff := c.off_lt
  omega

theorem readByte_of_memRead {a i : Nat} {out : List Byte} (h : memRead m a out.length = out) (hi : i < out.length) :
    readByte m (a + i) = out[i] := by
  rw [← memRead_getElem (by rwa [memRead_length])]
  simp only [h]

theorem splitByte_planePlace (hk : k < w * h) (base : Nat) (c : Channel) :
    splitByte m base w h c (planePlace w h k) = readByte m (base + (4 * k + c.off)) := by
  have hbyte (i : Nat) : splitByte m base w h c i = readByte m (base + (4 * planePlace w h i + c.off)) := rfl
  rw [hbyte, planePlace_planePlace hk]

/-- A byte of pixel k in the merged image: from the channel's plane, or FILL24 for a channel the depth lacks. -/
theorem mergeByte_pixel (plane : Channel → Nat) (c : Channel) :
    mergeByte m plane cs w h (4 * k + c.off) =
      if c ∈ cs then readByte m (plane c + planePlace w h k) else Config.fill24 := by
  have hoff := c.off_lt
  have hbyte : (4 * k + c.off) % 4 = c.off := by omega
  have hpixel : (4 * k + c.off) / 4 = k := by omega
  simp only [mergeByte, pixelStride_eq, hbyte, hpixel, atOff_off, List.contains_iff_mem, planePlace]

end Bytes

/-! ### The channels of a depth, and the checks on their planes -/

section ChannelPlanes

variable {bpp : Half} {cs : List Channel} {r : Regs} {x : Range}

theorem off_atOff {o : Nat} (ho : o < 4) : (Channel.atOff o).off = o := by
  have key : ∀ o : Fin 4, (Channel.atOff o).off = o := by decide
  exact key ⟨o, ho⟩

theorem channels_nodup (h : channels bpp = some cs) : cs.Nodup := by
  rcases channels_cases h with ⟨-, rfl⟩ | ⟨-, rfl⟩ <;> decide

/-- The one byte of a pixel without a channel is the one at offset 0 at depth 24 (R162). -/
theorem mem_channels_iff (h : channels bpp = some cs) (c : Channel) : c ∈ cs ↔ ¬ (bpp = 24#16 ∧ c.off = 0) := by
  rcases channels_cases h with ⟨rfl, rfl⟩ | ⟨rfl, rfl⟩ <;> cases c <;> decide

/-- No two planes of a depth overlap. -/
def PlanesApart (r : Regs) (cs : List Channel) : Prop :=
  ∀ c ∈ cs, ∀ c' ∈ cs, c ≠ c' → (planeRange r c).overlaps (planeRange r c') = false

theorem planesApart_iff (h : cs.Nodup) :
    PlanesApart r cs ↔ (cs.map (planeRange r)).Pairwise fun x y => x.overlaps y = false := by
  have hsymm : Std.Symm fun c c' => (planeRange r c).overlaps (planeRange r c') = false :=
    ⟨fun _ _ ho => (overlaps_comm _ _).trans ho⟩
  rw [List.pairwise_map]
  exact ⟨fun hapart => h.pairwise_of_forall_ne hapart, fun hp _ hc _ hc' hne => hp.forall hc hc' hne⟩

theorem checkRanges_split_none (h : cs.Nodup) :
    checkRanges [x] (cs.map (planeRange r)) = none ↔
      x.inRange = true ∧ (∀ c ∈ cs, (planeRange r c).inRange = true) ∧
      (∀ c ∈ cs, (planeRange r c).overlaps x = false) ∧ PlanesApart r cs := by
  simp [checkRanges_none, planesApart_iff h]

theorem checkRanges_split_addressRange (h : x.inRange = false ∨ ∃ c ∈ cs, (planeRange r c).inRange = false) :
    checkRanges [x] (cs.map (planeRange r)) = some .addressRange := by
  rcases h with h | ⟨c, hc, h⟩
  · exact checkRanges_addressRange (.inl (List.mem_singleton_self x)) h
  · exact checkRanges_addressRange (.inr (List.mem_map_of_mem hc)) h

theorem checkRanges_split_bufferOverlap (hcs : cs.Nodup) (hx : x.inRange = true)
    (hplanes : ∀ c ∈ cs, (planeRange r c).inRange = true)
    (ho : (∃ c ∈ cs, (planeRange r c).overlaps x = true) ∨
      ∃ c ∈ cs, ∃ c' ∈ cs, c ≠ c' ∧ (planeRange r c).overlaps (planeRange r c') = true) :
    checkRanges [x] (cs.map (planeRange r)) = some .bufferOverlap := by
  refine checkRanges_bufferOverlap (List.forall_mem_singleton.2 hx) (List.forall_mem_map.2 hplanes) ?_
  rcases ho with ⟨c, hc, ho⟩ | ⟨c, hc, c', hc', hne, ho⟩
  · exact .inl ⟨_, List.mem_map_of_mem hc, x, List.mem_singleton_self x, ho⟩
  · rw [← planesApart_iff hcs]
    exact .inr fun hapart => Bool.false_ne_true ((hapart c hc c' hc' hne).symm.trans ho)

end ChannelPlanes

section OneDestination

variable {cs : List Channel} {f : Channel → Range} {x : Range}

theorem checkRanges_sources_none :
    checkRanges (cs.map f) [x] = none ↔
      (∀ c ∈ cs, (f c).inRange = true) ∧ x.inRange = true ∧
      ∀ c ∈ cs, x.overlaps (f c) = false := by
  simp [checkRanges_none]

theorem checkRanges_sources_addressRange (h : x.inRange = false ∨ ∃ c ∈ cs, (f c).inRange = false) :
    checkRanges (cs.map f) [x] = some .addressRange := by
  rcases h with h | ⟨c, hc, h⟩
  · exact checkRanges_addressRange (.inr (List.mem_singleton_self x)) h
  · exact checkRanges_addressRange (.inl (List.mem_map_of_mem hc)) h

theorem checkRanges_sources_bufferOverlap (hsrcs : ∀ c ∈ cs, (f c).inRange = true) (hx : x.inRange = true)
    (ho : ∃ c ∈ cs, x.overlaps (f c) = true) :
    checkRanges (cs.map f) [x] = some .bufferOverlap := by
  obtain ⟨c, hc, ho⟩ := ho
  exact checkRanges_bufferOverlap (List.forall_mem_map.2 hsrcs) (List.forall_mem_singleton.2 hx)
    (.inl ⟨x, List.mem_singleton_self x, _, List.mem_map_of_mem hc, ho⟩)

end OneDestination

/-! ### PLANE_SPLIT -/

/-- The store of channel c in the commit set of PLANE_SPLIT. -/
def splitStore (r : Regs) (m : Memory) (c : Channel) : Nat × List Byte :=
  ((planeReg r c).toNat, splitPlane m r.srcAddr.toNat r.imgW.toNat r.imgH.toNat c)

section SplitBody

variable {r : Regs} {m : Memory} {cs : List Channel} {f : BlockFault} {c : Channel} {k : Nat}

theorem splitStore_length : (splitStore r m c).2.length = imgPixels r := splitPlane_length ..

theorem storeRange_splitStore : storeRange (splitStore r m c) = planeRange r c := by
  rw [storeRange, splitStore_length]
  rfl

theorem splitStore_planePlace (hk : k < imgPixels r)
    (hplace : planePlace r.imgW.toNat r.imgH.toNat k < (splitStore r m c).2.length) :
    (splitStore r m c).2[planePlace r.imgW.toNat r.imgH.toNat k] =
      readByte m (r.srcAddr.toNat + (4 * k + c.off)) := by
  simp only [splitStore, splitPlane, List.getElem_map, List.getElem_range]
  exact splitByte_planePlace hk _ _

theorem planeSplitBody_of_no_channels (h : channels r.imgBpp = none) :
    planeSplitBody r m = .error .unsupportedPixelFormat := by
  unfold planeSplitBody
  rw [h]

theorem planeSplitBody_of_checkRanges (h : channels r.imgBpp = some cs)
    (hc : checkRanges [imageSrcRange r] (cs.map (planeRange r)) = some f) : planeSplitBody r m = .error f := by
  unfold planeSplitBody
  rw [h]
  dsimp only
  rw [hc]

end SplitBody

/-- What a successful PLANE_SPLIT of these channels makes of s (R163): each channel byte of each pixel at its place in
its plane, no other byte changed; HDR_BPP is the depth. -/
structure SplitResult (cs : List Channel) (s t : State) : Prop where
  planes : ∀ c ∈ cs, ∀ k < imgPixels s.regs,
    readByte t.mem (planeAddr s.regs c k) = readByte s.mem (s.regs.srcAddr.toNat + (4 * k + c.off))
  frame : ∀ a, (∀ c ∈ cs, ¬ (planeRange s.regs c).mem a) → readByte t.mem a = readByte s.mem a
  regs : t.regs = { completedRegs 0x00000003#32 (imgPixels s.regs) s.regs with hdrBpp := s.regs.imgBpp }
  host : keepsHost s t

section Split

variable {s t : State} {cs : List Channel}

theorem planeSplit_success (hmem : Memory.wf s.mem = true) (hch : channels s.regs.imgBpp = some cs)
    (hc : checkRanges [imageSrcRange s.regs] (cs.map (planeRange s.regs)) = none) :
    ∃ t, exec .planeSplit s = .next t ∧ SplitResult cs s t := by
  have hok : planeSplitBody s.regs s.mem =
      .ok ⟨cs.map (splitStore s.regs s.mem), [(.hdrBpp, s.regs.imgBpp.setWidth 32)], imgPixels s.regs⟩ :=
    planeSplitBody_ok.2 ⟨cs, hch, hc, rfl⟩
  have hranges := Command.planeSplit.stores_inRange hok
  obtain ⟨-, -, -, hapart⟩ := checkRanges_none.1 hc
  refine ⟨_, (Command.planeSplit.exec_eq s).trans (congrArg _ (runCommand_ok hok)), ?_, ?_, ?_, rfl, rfl⟩
  · intro c hcs k hk
    have hplace : planePlace s.regs.imgW.toNat s.regs.imgH.toNat k < (splitStore s.regs s.mem c).2.length := by
      rw [splitStore_length]
      exact planePlace_lt hk
    have hpairs : (cs.map (splitStore s.regs s.mem)).Pairwise fun x y =>
        (storeRange x).overlaps (storeRange y) = false := by
      rw [List.pairwise_map] at hapart ⊢
      simpa only [storeRange_splitStore] using hapart
    exact (readByte_applyStores_inside hmem hranges hpairs (List.mem_map_of_mem hcs) hplace).trans
      (splitStore_planePlace hk hplace)
  · intro a ha
    refine readByte_applyStores_outside hmem hranges fun x hx => ?_
    obtain ⟨c, hcs, rfl⟩ := List.mem_map.1 hx
    rw [storeRange_splitStore]
    exact ha c hcs
  · rw [commit_regs, applyRegWrites_cons, applyRegWrites_nil, setReg, BitVec16_setWidth_roundtrip]
    rfl

theorem splitResult_of_not_fault (hmem : Memory.wf s.mem = true) (ht : exec .planeSplit s = .next t)
    (hfault : t.regs.status.fault = false) : ∃ cs, channels s.regs.imgBpp = some cs ∧ SplitResult cs s t := by
  rcases Command.planeSplit.next_cases ht with ⟨f, rfl⟩ | ⟨c, hok, -⟩
  · cases hfault
  · obtain ⟨cs, hch, hc, -⟩ := planeSplitBody_ok.1 hok
    obtain ⟨u, hu, hres⟩ := planeSplit_success hmem hch hc
    cases ht.symm.trans hu
    exact ⟨cs, hch, hres⟩

end Split

/-! ### PLANE_MERGE -/

section MergeBody

variable {r : Regs} {m : Memory} {cs : List Channel} {f : BlockFault}

theorem planeMergeBody_of_no_channels (h : channels r.hdrBpp = none) :
    planeMergeBody r m = .error .unsupportedPixelFormat := by
  unfold planeMergeBody
  rw [h]

theorem planeMergeBody_of_checkRanges (h : channels r.hdrBpp = some cs)
    (hc : checkRanges (cs.map (planeRange r)) [dstRange r] = some f) : planeMergeBody r m = .error f := by
  unfold planeMergeBody
  rw [h]
  dsimp only
  rw [hc]

theorem planeMergeBody_outputOverflow (h : channels r.hdrBpp = some cs)
    (hc : checkRanges (cs.map (planeRange r)) [dstRange r] = none) (hlen : r.dstCap.toNat < 4 * imgPixels r) :
    planeMergeBody r m = .error .outputOverflow := by
  unfold planeMergeBody
  rw [h]
  dsimp only
  rw [hc]
  exact if_pos hlen

end MergeBody

/-- What a successful PLANE_MERGE of these channels makes of s (R164): each byte of each pixel from its channel's plane,
or FILL24 where the depth lacks the channel; no other byte changed. -/
structure MergeResult (cs : List Channel) (s t : State) : Prop where
  pixels : ∀ c, ∀ k < imgPixels s.regs,
    readByte t.mem (s.regs.dstAddr.toNat + (4 * k + c.off)) =
      if c ∈ cs then readByte s.mem (planeAddr s.regs c k) else Config.fill24
  frame : unchangedOutside ⟨s.regs.dstAddr.toNat, 4 * imgPixels s.regs⟩ s.mem t.mem
  regs : t.regs = completedRegs 0x00000004#32 (4 * imgPixels s.regs) s.regs
  host : keepsHost s t

section Merge

variable {s t : State} {cs : List Channel}

theorem planeMerge_success (hmem : Memory.wf s.mem = true) (hch : channels s.regs.hdrBpp = some cs)
    (hc : checkRanges (cs.map (planeRange s.regs)) [dstRange s.regs] = none)
    (hlen : 4 * imgPixels s.regs ≤ s.regs.dstCap.toNat) :
    ∃ t, exec .planeMerge s = .next t ∧ MergeResult cs s t := by
  obtain ⟨t, ht, hread, hframe, hregs, hhost⟩ :=
    Command.planeMerge.exec_of_one_store hmem (planeMergeBody_ok.2 ⟨cs, hch, hc, hlen, rfl⟩)
  rw [mergeImage_length] at hframe
  refine ⟨t, ht, fun c k hk => ?_, hframe, hregs, hhost⟩
  rw [readByte_of_memRead hread (by rw [mergeImage_length]; exact pixelByte_lt hk c), planeAddr,
    ← mergeByte_pixel fun c => (planeReg s.regs c).toNat]
  simp only [mergeImage, List.getElem_map, List.getElem_range]

theorem mergeResult_of_not_fault (hmem : Memory.wf s.mem = true) (ht : exec .planeMerge s = .next t)
    (hfault : t.regs.status.fault = false) : ∃ cs, channels s.regs.hdrBpp = some cs ∧ MergeResult cs s t := by
  rcases Command.planeMerge.next_cases ht with ⟨f, rfl⟩ | ⟨c, hok, -⟩
  · cases hfault
  · obtain ⟨cs, hch, hc, hlen, -⟩ := planeMergeBody_ok.1 hok
    obtain ⟨u, hu, hres⟩ := planeMerge_success hmem hch hc hlen
    cases ht.symm.trans hu
    exact ⟨cs, hch, hres⟩

end Merge

/-! ### One command after the other (R166) -/

/-- t after the host has written the destination of a PLANE_MERGE (10_state.md R33). -/
def State.withDestination (t : State) (d cap : Word) : State :=
  { t with regs := { t.regs with dstAddr := d, dstCap := cap } }

/-- t after the host has written the source image of a PLANE_SPLIT and its depth (10_state.md R32, R34). -/
def State.withSourceImage (t : State) (src : Word) (bpp : Half) : State :=
  { t with regs := { t.regs with srcAddr := src, imgBpp := bpp } }

/-- A merge after a split takes each channel byte from where the split put it (R166 (a), (b)). -/
theorem merge_after_split {cs : List Channel} {s t u : State} {d cap : Word}
    (hsplit : SplitResult cs s t) (hmerge : MergeResult cs (t.withDestination d cap) u) {k : Nat}
    (hk : k < imgPixels s.regs) (c : Channel) :
    readByte u.mem (d.toNat + (4 * k + c.off)) =
      if c ∈ cs then readByte s.mem (s.regs.srcAddr.toNat + (4 * k + c.off)) else Config.fill24 := by
  have hpixels : imgPixels t.regs = imgPixels s.regs := by rw [hsplit.regs]; rfl
  have haddr : planeAddr t.regs c k = planeAddr s.regs c k := by rw [hsplit.regs]; rfl
  refine (hmerge.pixels c k (hk.trans_eq hpixels.symm)).trans (ite_congr rfl (fun hc => ?_) fun _ => rfl)
  exact (congrArg (readByte t.mem) haddr).trans (hsplit.planes c hc k hk)

/-- A split after a merge puts each channel byte back where the merge took it from (R166 (c)). -/
theorem split_after_merge {cs : List Channel} {s t u : State} {bpp : Half} (hmerge : MergeResult cs s t)
    (hsplit : SplitResult cs (t.withSourceImage s.regs.dstAddr bpp) u) {c : Channel} (hc : c ∈ cs) {k : Nat}
    (hk : k < imgPixels s.regs) : readByte u.mem (planeAddr s.regs c k) = readByte s.mem (planeAddr s.regs c k) := by
  have hpixels : imgPixels t.regs = imgPixels s.regs := by rw [hmerge.regs]; rfl
  have haddr : planeAddr t.regs c k = planeAddr s.regs c k := by rw [hmerge.regs]; rfl
  calc readByte u.mem (planeAddr s.regs c k)
      = readByte u.mem (planeAddr t.regs c k) := by rw [haddr]
    _ = readByte t.mem (s.regs.dstAddr.toNat + (4 * k + c.off)) := hsplit.planes c hc k (hk.trans_eq hpixels.symm)
    _ = readByte s.mem (planeAddr s.regs c k) := (hmerge.pixels c k hk).trans (if_pos hc)

/-! ### The statements -/

/-- Settles O37: each clause is one end of the body; pixel (x, y) is the pixel with number y·W + x. -/
theorem planeSplitFollowsItsRule : Obligations.PlaneSplitFollowsItsRule := by
  intro s hmem w h src
  refine ⟨fun hch => Command.planeSplit.exec_of_error (planeSplitBody_of_no_channels hch), fun cs hch => ?_⟩
  have hfault {f : BlockFault} (hc : checkRanges [src] (cs.map (planeRange s.regs)) = some f) :
      exec .planeSplit s = .next (faultedState 0x00000003#32 f.code s) :=
    Command.planeSplit.exec_of_error (planeSplitBody_of_checkRanges hch hc)
  refine ⟨fun hr => hfault (checkRanges_split_addressRange hr), fun hsrc hplanes => ⟨fun ho => ?_, fun ho hapart => ?_⟩⟩
  · exact hfault (checkRanges_split_bufferOverlap (channels_nodup hch) hsrc hplanes ho)
  · obtain ⟨t, ht, hres⟩ := planeSplit_success hmem hch
      ((checkRanges_split_none (channels_nodup hch)).2 ⟨hsrc, hplanes, ho, hapart⟩)
    refine ⟨t, ht, fun c hc x y hx hy => ?_, hres.frame, hres.regs, hres.host⟩
    rw [← planePlace_pixel hx, Nat.add_assoc]
    exact hres.planes c hc _ (pixel_lt hx hy)

/-- Settles O38: each clause is one end of the body; pixel (x, y) is the pixel with number y·W + x, and at depth 24 the
byte at offset 0 belongs to no channel. -/
theorem planeMergeFollowsItsRule : Obligations.PlaneMergeFollowsItsRule := by
  intro s hmem w h dst
  refine ⟨fun hch => Command.planeMerge.exec_of_error (planeMergeBody_of_no_channels hch), fun cs hch => ?_⟩
  have hfault {f : BlockFault} (hc : checkRanges (cs.map (planeRange s.regs)) [dst] = some f) :
      exec .planeMerge s = .next (faultedState 0x00000004#32 f.code s) :=
    Command.planeMerge.exec_of_error (planeMergeBody_of_checkRanges hch hc)
  refine ⟨fun hr => hfault (checkRanges_sources_addressRange hr), fun hdst hplanes => ⟨fun ho => ?_, fun ho => ?_⟩⟩
  · exact hfault (checkRanges_sources_bufferOverlap hplanes hdst ho)
  · have hc := checkRanges_sources_none.2 ⟨hplanes, hdst, ho⟩
    refine ⟨fun hlen => Command.planeMerge.exec_of_error (planeMergeBody_outputOverflow hch hc hlen), fun hlen => ?_⟩
    obtain ⟨t, ht, hres⟩ := planeMerge_success hmem hch hc hlen
    refine ⟨t, ht, fun c hcs x y hx hy => ?_, fun h24 x y hx hy => ?_, hres.frame, hres.regs, hres.host⟩
    · rw [← planePlace_pixel hx]
      exact (hres.pixels c _ (pixel_lt hx hy)).trans (if_pos hcs)
    · have hfill : Channel.a ∉ cs := fun ha => (mem_channels_iff hch .a).1 ha ⟨h24, rfl⟩
      exact (hres.pixels .a _ (pixel_lt hx hy)).trans (if_neg hfill)

/-- Settles O39: both commands carry pixel k between the image and its place in the plane, so the second takes each byte
from where the first put it. -/
theorem planarInverseLaws : Obligations.PlanarInverseLaws := by
  refine ⟨fun s t u d cap hmem ht htf hu huf k hk o ho => ?_, fun s t u hmem ht htf hu huf cs hch c hc i hi => ?_⟩
  · obtain ⟨cs, hch, hsplit⟩ := splitResult_of_not_fault hmem ht htf
    have htmem := Command.planeSplit.wf_next hmem ht
    obtain ⟨cs', hch', hmerge⟩ := mergeResult_of_not_fault (s := t.withDestination d cap) htmem hu huf
    have hdepth : (t.withDestination d cap).regs.hdrBpp = s.regs.imgBpp := congrArg Regs.hdrBpp hsplit.regs
    cases hch.symm.trans (hdepth ▸ hch')
    obtain ⟨c, rfl⟩ : ∃ c : Channel, c.off = o := ⟨_, off_atOff ho⟩
    simp only [merge_after_split hsplit hmerge hk, mem_channels_iff hch, ite_not]
  · obtain ⟨cs₁, hch₁, hmerge⟩ := mergeResult_of_not_fault hmem ht htf
    have htmem := Command.planeMerge.wf_next hmem ht
    obtain ⟨cs₂, hch₂, hsplit⟩ := splitResult_of_not_fault (s := t.withSourceImage s.regs.dstAddr s.regs.hdrBpp)
      htmem hu huf
    cases hch.symm.trans hch₁
    cases hch.symm.trans hch₂
    have h := split_after_merge hmerge hsplit hc (planePlace_lt hi)
    rwa [planeAddr, planePlace_planePlace hi] at h

end Sys2Proof.Machine

/-! ## GrdContainer (43_container.md R180 to R189) -/

namespace Sys2Proof.Machine

/-! ### The container as bytes, and its length -/

section Container

variable {r : Regs} {m m' : Memory} {cs : List Channel} {a : Nat}

/-- The aLen field is HDR_ALEN but at depth 24, the one depth without an A block (R181). -/
theorem aLenOut_of_channels (hch : channels r.hdrBpp = some cs) :
    aLenOut r = if r.hdrBpp = 24#16 then 0#32 else r.hdrALen := by
  unfold aLenOut
  rcases channels_cases hch with ⟨h32, -⟩ | ⟨h24, -⟩
  · simp [h32]
  · simp [h24]

/-- The header of a container declares the container's length (R183, R184). -/
theorem headerTotal_of_headerAt (h : headerAt m a r (aLenOut r)) (hch : channels r.hdrBpp = some cs) :
    headerTotal m a = packTotal r cs := by
  obtain ⟨-, -, -, -, -, -, -, -, ha, hr, hg, hb⟩ := h
  rw [headerTotal, ha, hr, hg, hb, aLenOut_of_channels hch, packTotal]
  rcases channels_cases hch with ⟨h32, rfl⟩ | ⟨h24, rfl⟩
  · simp [h32, lenReg, Nat.add_assoc]
  · simp [h24, lenReg, Nat.add_assoc]

theorem packTotal_append_cons (r : Regs) (pre post : List Channel) (c : Channel) :
    packTotal r (pre ++ c :: post) =
      packTotal r pre + ((lenReg r c).toNat + (post.map fun c => (lenReg r c).toNat).sum) := by
  simp [packTotal, Nat.add_assoc]

theorem packBytes_append_cons (r : Regs) (m : Memory) (pre post : List Channel) (c : Channel) :
    packBytes r m (pre ++ c :: post) =
      packBytes r m pre ++ (memRead m (blkReg r c).toNat (lenReg r c).toNat ++
        post.flatMap fun c => memRead m (blkReg r c).toNat (lenReg r c).toNat) := by
  simp [packBytes]

/-- The first 32 bytes of a container are its header, the others its blocks. -/
theorem container_parts (h : memRead m' a (packTotal r cs) = packBytes r m cs) :
    headerAt m' a r (aLenOut r) ∧
      memRead m' (a + 32) (packTotal r cs - 32) =
        cs.flatMap fun c => memRead m (blkReg r c).toNat (lenReg r c).toNat := by
  rw [packTotal, hdrSize_eq, Nat.add_sub_cancel_left]
  rw [packTotal, hdrSize_eq, memRead_add, packBytes] at h
  obtain ⟨hhdr, hblocks⟩ := List.append_inj h (by rw [memRead_length, hdrBytes_length])
  exact ⟨headerAt_of_memRead hhdr, hblocks⟩

/-- In a container the block of a channel begins where the container of the channels before it would end. -/
theorem container_block {pre post : List Channel} {c : Channel}
    (h : memRead m' a (packTotal r (pre ++ c :: post)) = packBytes r m (pre ++ c :: post)) :
    memRead m' (a + packTotal r pre) (lenReg r c).toNat = memRead m (blkReg r c).toNat (lenReg r c).toNat := by
  rw [packTotal_append_cons, packBytes_append_cons, memRead_add, memRead_add] at h
  obtain ⟨-, hrest⟩ := List.append_inj h (by rw [memRead_length, packBytes_length])
  exact (List.append_inj hrest (by simp only [memRead_length])).1

end Container

/-! ### The faults of the bodies, one lemma for each check -/

section OneRange

variable {x : Range}

theorem checkRanges_destination_addressRange (h : x.inRange = false) : checkRanges [] [x] = some .addressRange :=
  checkRanges_addressRange (.inr (List.mem_singleton_self x)) h

theorem checkRanges_destination_none : checkRanges [] [x] = none ↔ x.inRange = true := by
  simp [checkRanges_none]

theorem checkRanges_source_addressRange (h : x.inRange = false) : checkRanges [x] [] = some .addressRange :=
  checkRanges_addressRange (.inl (List.mem_singleton_self x)) h

theorem checkRanges_source_none : checkRanges [x] [] = none ↔ x.inRange = true := by
  simp [checkRanges_none]

end OneRange

section WriterBodies

variable {r : Regs} {m : Memory} {cs : List Channel} {f : BlockFault}

theorem hdrWriteBody_of_no_channels (h : channels r.hdrBpp = none) :
    hdrWriteBody r m = .error .unsupportedPixelFormat := by
  unfold hdrWriteBody
  rw [h]

theorem hdrWriteBody_of_checkRanges (h : channels r.hdrBpp = some cs) (hc : checkRanges [] [dstRange r] = some f) :
    hdrWriteBody r m = .error f := by
  unfold hdrWriteBody
  rw [h, hc]

theorem hdrWriteBody_outputOverflow (h : channels r.hdrBpp = some cs) (hc : checkRanges [] [dstRange r] = none)
    (hlen : r.dstCap.toNat < 32) : hdrWriteBody r m = .error .outputOverflow := by
  unfold hdrWriteBody
  rw [h, hc]
  exact if_pos hlen

theorem grdPackBody_of_no_channels (h : channels r.hdrBpp = none) :
    grdPackBody r m = .error .unsupportedPixelFormat := by
  unfold grdPackBody
  rw [h]

theorem grdPackBody_of_checkRanges (h : channels r.hdrBpp = some cs)
    (hc : checkRanges (cs.map (blkRange r)) [dstRange r] = some f) : grdPackBody r m = .error f := by
  unfold grdPackBody
  rw [h]
  dsimp only
  rw [hc]

theorem grdPackBody_outputOverflow (h : channels r.hdrBpp = some cs)
    (hc : checkRanges (cs.map (blkRange r)) [dstRange r] = none) (hlen : r.dstCap.toNat < packTotal r cs) :
    grdPackBody r m = .error .outputOverflow := by
  unfold grdPackBody
  rw [h]
  dsimp only
  rw [hc]
  exact if_pos hlen

end WriterBodies

section ReaderChecks

variable {r : Regs} {m : Memory} {f : BlockFault}

theorem hdrReadBody_of_check (h : hdrReadCheck r m = some f) : hdrReadBody r m = .error f := by
  unfold hdrReadBody
  rw [h]

theorem hdrReadCheck_addressRange (h : (srcRange r).inRange = false) : hdrReadCheck r m = some .addressRange := by
  unfold hdrReadCheck
  rw [checkRanges_source_addressRange h]

variable (hsrc : (srcRange r).inRange = true)
include hsrc

theorem hdrReadCheck_no_header (hlen : r.srcLen.toNat < 32) : hdrReadCheck r m = some .truncatedFile := by
  unfold hdrReadCheck
  rw [checkRanges_source_none.2 hsrc]
  exact if_pos hlen

variable (hlen : 32 ≤ r.srcLen.toNat)
include hlen

theorem hdrReadCheck_packType (htype : load16 m r.srcAddr.toNat ≠ 0x0101#16) :
    hdrReadCheck r m = some .unsupportedPackType := by
  unfold hdrReadCheck
  rw [checkRanges_source_none.2 hsrc]
  exact (if_neg (Nat.not_lt.2 hlen)).trans (if_pos htype)

variable (htype : load16 m r.srcAddr.toNat = 0x0101#16)
include htype

theorem hdrReadCheck_depth (hbpp : channels (load16 m (r.srcAddr.toNat + 6)) = none) :
    hdrReadCheck r m = some .unsupportedPixelFormat := by
  unfold hdrReadCheck
  rw [checkRanges_source_none.2 hsrc]
  exact (if_neg (Nat.not_lt.2 hlen)).trans ((if_neg (not_not.2 htype)).trans (if_pos hbpp))

theorem hdrReadCheck_headerInvariant
    (hinv : load16 m (r.srcAddr.toNat + 6) = 24#16 ∧ load32 m (r.srcAddr.toNat + 16) ≠ 0#32) :
    hdrReadCheck r m = some .headerInvariant := by
  have hbpp : channels (load16 m (r.srcAddr.toNat + 6)) ≠ none := by simp [channels_none, hinv.1]
  unfold hdrReadCheck
  rw [checkRanges_source_none.2 hsrc]
  exact (if_neg (Nat.not_lt.2 hlen)).trans ((if_neg (not_not.2 htype)).trans ((if_neg hbpp).trans (if_pos hinv)))

theorem hdrReadCheck_truncated
    (hbpp : load16 m (r.srcAddr.toNat + 6) = 32#16 ∨
      (load16 m (r.srcAddr.toNat + 6) = 24#16 ∧ load32 m (r.srcAddr.toNat + 16) = 0#32))
    (htotal : r.srcLen.toNat < headerTotal m r.srcAddr.toNat) : hdrReadCheck r m = some .truncatedFile := by
  have hch : channels (load16 m (r.srcAddr.toNat + 6)) ≠ none := by
    rcases hbpp with h | ⟨h, -⟩ <;> simp [channels_none, h]
  have hinv : ¬ (load16 m (r.srcAddr.toNat + 6) = 24#16 ∧ load32 m (r.srcAddr.toNat + 16) ≠ 0#32) := by
    rcases hbpp with h | ⟨-, h⟩ <;> simp [h]
  unfold hdrReadCheck
  rw [checkRanges_source_none.2 hsrc]
  exact (if_neg (Nat.not_lt.2 hlen)).trans ((if_neg (not_not.2 htype)).trans ((if_neg hch).trans
    ((if_neg hinv).trans (if_pos htotal))))

end ReaderChecks

/-! ### GRD_PACK -/

/-- What a successful GRD_PACK of these channels makes of s (R183): the container at DST_ADDR, in range, no other byte
changed, and its length in RESULT_LEN. -/
structure PackResult (cs : List Channel) (s t : State) : Prop where
  inRange : (Range.mk s.regs.dstAddr.toNat (packTotal s.regs cs)).inRange = true
  container : memRead t.mem s.regs.dstAddr.toNat (packTotal s.regs cs) = packBytes s.regs s.mem cs
  frame : unchangedOutside ⟨s.regs.dstAddr.toNat, packTotal s.regs cs⟩ s.mem t.mem
  length : t.regs.resultLen.toNat = packTotal s.regs cs
  regs : t.regs = completedRegs 0x00000007#32 (packTotal s.regs cs) s.regs
  host : keepsHost s t

section Pack

variable {s t : State} {cs : List Channel}

theorem grdPack_success (hmem : Memory.wf s.mem = true) (hch : channels s.regs.hdrBpp = some cs)
    (hc : checkRanges (cs.map (blkRange s.regs)) [dstRange s.regs] = none)
    (hlen : packTotal s.regs cs ≤ s.regs.dstCap.toNat) : ∃ t, exec .grdPack s = .next t ∧ PackResult cs s t := by
  have hok : grdPackBody s.regs s.mem =
      .ok ⟨[(s.regs.dstAddr.toNat, packBytes s.regs s.mem cs)], [], packTotal s.regs cs⟩ :=
    grdPackBody_ok.2 ⟨cs, hch, hc, hlen, rfl⟩
  have hranges := Command.grdPack.stores_inRange hok _ (List.mem_singleton_self _)
  obtain ⟨t, ht, hread, hframe, hregs, hhost⟩ := Command.grdPack.exec_of_one_store hmem hok
  rw [storeRange, packBytes_length] at hranges
  rw [packBytes_length] at hread hframe
  refine ⟨t, ht, hranges, hread, hframe, ?_, hregs, hhost⟩
  rw [hregs, completedRegs, BitVec.toNat_ofNat, Nat.mod_eq_of_lt (hlen.trans_lt s.regs.dstCap.isLt)]

theorem packResult_of_not_fault (hmem : Memory.wf s.mem = true) (ht : exec .grdPack s = .next t)
    (hfault : t.regs.status.fault = false) : ∃ cs, channels s.regs.hdrBpp = some cs ∧ PackResult cs s t := by
  rcases Command.grdPack.next_cases ht with ⟨f, rfl⟩ | ⟨c, hok, -⟩
  · cases hfault
  · obtain ⟨cs, hch, hc, hlen, -⟩ := grdPackBody_ok.1 hok
    obtain ⟨u, hu, hres⟩ := grdPack_success hmem hch hc hlen
    cases ht.symm.trans hu
    exact ⟨cs, hch, hres⟩

theorem PackResult.header (h : PackResult cs s t) :
    headerAt t.mem s.regs.dstAddr.toNat s.regs (aLenOut s.regs) := (container_parts h.container).1

theorem PackResult.aLen_field (h : PackResult cs s t) :
    load32 t.mem (s.regs.dstAddr.toNat + 16) = aLenOut s.regs := by
  obtain ⟨-, -, -, -, -, -, -, -, haLen, -⟩ := h.header
  exact haLen

end Pack

/-! ### HDR_READ -/

/-- s after an HDR_READ whose every check passed (R185). -/
def State.headerLoaded (s : State) : State :=
  commit (hdrReadCommit s.regs s.mem) (recordCommand 0x00000006#32 s)

theorem hdrRead_success {s : State} (hck : hdrReadCheck s.regs s.mem = none) :
    exec .hdrRead s = .next s.headerLoaded :=
  (Command.hdrRead.exec_eq s).trans (congrArg _ (runCommand_ok (hdrReadBody_ok.2 ⟨hck, rfl⟩)))

/-- The address HDR_READ loads in BLK[c]: that of the container, and the length of the container of the channels before c,
modulo 2^32 (R185). -/
theorem blkReg_headerLoaded {s : State} {q : Regs} {cs : List Channel} {c : Channel}
    (h : headerAt s.mem s.regs.srcAddr.toNat q (aLenOut q)) (hch : channels q.hdrBpp = some cs) (hc : c ∈ cs) :
    ∃ pre post, cs = pre ++ c :: post ∧
      blkReg s.headerLoaded.regs c = BitVec.ofNat 32 (s.regs.srcAddr.toNat + packTotal q pre) := by
  obtain ⟨-, -, -, -, -, -, -, -, ha, hr, hg, -⟩ := h
  rw [aLenOut_of_channels hch] at ha
  rw [State.headerLoaded, commit_regs, hdrReadCommit_regs, ha, hr, hg]
  rcases channels_cases hch with ⟨h32, rfl⟩ | ⟨h24, rfl⟩
  · cases c with
    | a => exact ⟨[], [.r, .g, .b], rfl, by simp [blkReg, packTotal]⟩
    | r => exact ⟨[.a], [.g, .b], rfl, by simp [blkReg, packTotal, lenReg, h32, Nat.add_assoc]⟩
    | g => exact ⟨[.a, .r], [.b], rfl, by simp [blkReg, packTotal, lenReg, h32, Nat.add_assoc]⟩
    | b => exact ⟨[.a, .r, .g], [], rfl, by simp [blkReg, packTotal, lenReg, h32, Nat.add_assoc]⟩
  · cases c with
    | a => simp at hc
    | r => exact ⟨[], [.g, .b], rfl, by simp [blkReg, packTotal, h24]⟩
    | g => exact ⟨[.r], [.b], rfl, by simp [blkReg, packTotal, lenReg, h24, Nat.add_assoc]⟩
    | b => exact ⟨[.r, .g], [], rfl, by simp [blkReg, packTotal, lenReg, h24, Nat.add_assoc]⟩

/-- The address modulo 2^32 of a slice that ends within the address space is its address, unless the slice is empty
(R185). -/
theorem memRead_ofNat {a n : Nat} (h : a + n ≤ Config.memSize) (m : Memory) :
    memRead m (BitVec.ofNat 32 a).toNat n = memRead m a n := by
  cases n with
  | zero => rfl
  | succ n => rw [BitVec.toNat_ofNat, Nat.mod_eq_of_lt]; rw [memSize_eq] at h; omega

/-! ### HDR_READ after GRD_PACK (R188) -/

/-- t after the host has written the source range of an HDR_READ (10_state.md R32). -/
def State.withSource (t : State) (src len : Word) : State :=
  { t with regs := { t.regs with srcAddr := src, srcLen := len } }

section RoundTrip

variable {s t : State} {cs : List Channel}

/-- The container GRD_PACK wrote passes every check of HDR_READ. -/
theorem PackResult.passes_hdrReadCheck (h : PackResult cs s t) (hch : channels s.regs.hdrBpp = some cs) :
    hdrReadCheck (t.withSource s.regs.dstAddr t.regs.resultLen).regs t.mem = none := by
  have htotal := headerTotal_of_headerAt h.header hch
  obtain ⟨htype, -, -, hbpp, -, -, -, -, haLen, -⟩ := h.header
  have hsrc : (Range.mk s.regs.dstAddr.toNat t.regs.resultLen.toNat).inRange = true := by
    rw [h.length]; exact h.inRange
  have h32 : 32 ≤ t.regs.resultLen.toNat := by rw [h.length, packTotal]; exact Nat.le_add_right _ _
  have hdepth : load16 t.mem (s.regs.dstAddr.toNat + 6) = 32#16 ∨
      (load16 t.mem (s.regs.dstAddr.toNat + 6) = 24#16 ∧ load32 t.mem (s.regs.dstAddr.toNat + 16) = 0#32) := by
    rw [hbpp, haLen, aLenOut_of_channels hch]
    rcases channels_cases hch with ⟨h32, -⟩ | ⟨h24, -⟩
    · exact .inl h32
    · exact .inr ⟨h24, if_pos h24⟩
  exact hdrReadCheck_none.2
    ⟨checkRanges_source_none.2 hsrc, h32, htype, hdepth, (htotal.trans h.length.symm).le⟩

/-- After HDR_READ of the container BLK[c] addresses a copy of the block of c that GRD_PACK read. -/
theorem PackResult.memRead_blkReg (h : PackResult cs s t) (hch : channels s.regs.hdrBpp = some cs) {c : Channel}
    (hc : c ∈ cs) :
    memRead t.mem (blkReg (t.withSource s.regs.dstAddr t.regs.resultLen).headerLoaded.regs c).toNat
        (lenReg s.regs c).toNat =
      memRead s.mem (blkReg s.regs c).toNat (lenReg s.regs c).toNat := by
  obtain ⟨pre, post, rfl, hblk⟩ :=
    blkReg_headerLoaded (s := t.withSource s.regs.dstAddr t.regs.resultLen) h.header hch hc
  have hend : s.regs.dstAddr.toNat + packTotal s.regs pre + (lenReg s.regs c).toNat ≤ Config.memSize := by
    have hrange : s.regs.dstAddr.toNat + packTotal s.regs (pre ++ c :: post) ≤ Config.memSize :=
      inRange_iff.1 h.inRange
    rw [packTotal_append_cons] at hrange
    omega
  rw [hblk]
  exact (memRead_ofNat hend t.mem).trans (container_block h.container)

end RoundTrip

/-- RESULT_LEN of an RLE_ENC that succeeds is the length of the stream (41_rle.md R138). -/
theorem rleEnc_resultLen {e f : State} (hf : exec .rleEnc e = .next f) (hfault : f.regs.status.fault = false) :
    f.regs.resultLen.toNat = (encOut e.regs e.mem).length := by
  rcases Command.rleEnc.next_cases hf with ⟨_, rfl⟩ | ⟨c, hok, rfl⟩
  · cases hfault
  · obtain ⟨-, hlen, rfl⟩ := rleEncBody_ok.1 hok
    rw [commit_regs, BitVec.toNat_ofNat, Nat.mod_eq_of_lt (hlen.trans_lt e.regs.dstCap.isLt)]

/-! ### The statements -/

/-- Settles O40: each clause is one end of the body. -/
theorem hdrWriteFollowsItsRule : Obligations.HdrWriteFollowsItsRule := by
  intro s hmem dst
  refine ⟨fun hch => Command.hdrWrite.exec_of_error (hdrWriteBody_of_no_channels hch), fun hch => ?_⟩
  obtain ⟨cs, hcs⟩ := Option.ne_none_iff_exists'.1 hch
  refine ⟨fun hr => Command.hdrWrite.exec_of_error
    (hdrWriteBody_of_checkRanges hcs (checkRanges_destination_addressRange hr)), fun hdst => ?_⟩
  have hc := checkRanges_destination_none.2 hdst
  refine ⟨fun hlen => Command.hdrWrite.exec_of_error (hdrWriteBody_outputOverflow hcs hc hlen), fun hlen => ?_⟩
  obtain ⟨t, ht, hread, hframe, hregs, hhost⟩ :=
    Command.hdrWrite.exec_of_one_store hmem (hdrWriteBody_ok.2 ⟨hch, hc, hlen, rfl⟩)
  exact ⟨t, ht, headerAt_of_memRead hread, hframe, hregs, hhost⟩

/-- Settles O41: each clause is one end of the body; the container is its header and its blocks. -/
theorem grdPackFollowsItsRule : Obligations.GrdPackFollowsItsRule := by
  intro s hmem dst
  refine ⟨fun hch => Command.grdPack.exec_of_error (grdPackBody_of_no_channels hch), fun cs hch => ?_⟩
  intro total
  have hfault {f : BlockFault} (hc : checkRanges (cs.map (blkRange s.regs)) [dst] = some f) :
      exec .grdPack s = .next (faultedState 0x00000007#32 f.code s) :=
    Command.grdPack.exec_of_error (grdPackBody_of_checkRanges hch hc)
  refine ⟨fun hr => hfault (checkRanges_sources_addressRange hr), fun hdst hblks => ⟨fun ho => ?_, fun ho => ?_⟩⟩
  · exact hfault (checkRanges_sources_bufferOverlap hblks hdst ho)
  · have hc := checkRanges_sources_none.2 ⟨hblks, hdst, ho⟩
    refine ⟨fun hlen => Command.grdPack.exec_of_error (grdPackBody_outputOverflow hch hc hlen), fun hlen => ?_⟩
    obtain ⟨t, ht, hres⟩ := grdPack_success hmem hch hc hlen
    obtain ⟨hheader, hblocks⟩ := container_parts hres.container
    exact ⟨t, ht, hheader, hblocks, hres.frame, hres.regs, hres.host⟩

/-- Settles O42: each clause is one check that fails after those before it passed. -/
theorem hdrReadChecks : Obligations.HdrReadChecks := by
  intro s a n bpp total ends
  have hfault {f : BlockFault} (hck : hdrReadCheck s.regs s.mem = some f) : ends f.code :=
    Command.hdrRead.exec_of_error (hdrReadBody_of_check hck)
  refine ⟨fun hr => hfault (hdrReadCheck_addressRange hr), fun hsrc =>
    ⟨fun hlen => hfault (hdrReadCheck_no_header hsrc hlen), fun hlen =>
      ⟨fun htype => hfault (hdrReadCheck_packType hsrc hlen htype), fun htype => ⟨?_, ?_, ?_⟩⟩⟩⟩
  · exact fun hbpp => hfault (hdrReadCheck_depth hsrc hlen htype (channels_none.2 hbpp))
  · exact fun hinv => hfault (hdrReadCheck_headerInvariant hsrc hlen htype hinv)
  · exact fun hbpp htotal => hfault (hdrReadCheck_truncated hsrc hlen htype hbpp htotal)

/-- Settles O43: the register writes of the commit set, the block addresses read modulo 2^32. -/
theorem hdrReadLoadsHeader : Obligations.HdrReadLoadsHeader := by
  intro s a n bpp aL rL gL bL total hsrc hlen htype hbpp htotal
  rw [hdrRead_success (hdrReadCheck_none.2 ⟨checkRanges_source_none.2 hsrc, hlen, htype, hbpp, htotal⟩),
    State.headerLoaded, commit, hdrReadCommit_regs]
  simp only [BitVec.ofNat_add, BitVec.ofNat_toNat, BitVec.setWidth_eq]
  rfl

/-- Settles O44: the body never faults, and its register writes are the default geometry. -/
theorem geomDefaultWritesGeometry : Obligations.GeomDefaultWritesGeometry := by
  intro s
  rw [Command.geomDefault.exec_eq, runCommand_ok rfl, commit]
  simp only [applyRegWrites_cons, applyRegWrites_nil, setReg, BitVec16_setWidth_roundtrip]
  rfl

/-- Settles O45: the container passes the checks of HDR_READ, its header fields are the registers GRD_PACK wrote, and
each block address is where GRD_PACK put the block. -/
theorem containerRoundTrip : Obligations.ContainerRoundTrip := by
  intro s t hmem ht hfault
  obtain ⟨cs, hch, hpack⟩ := packResult_of_not_fault hmem ht hfault
  have hread := hdrRead_success (s := t.withSource s.regs.dstAddr t.regs.resultLen) (hpack.passes_hdrReadCheck hch)
  obtain ⟨-, hscrW, hscrH, hbpp, hleft, hright, htop, hbottom, haLen, hrLen, hgLen, hbLen⟩ := hpack.header
  rw [aLenOut_of_channels hch] at haLen
  refine ⟨_, hread, rfl, ?_⟩
  rw [State.headerLoaded, commit_regs, hdrReadCommit_regs]
  refine ⟨hscrW, hscrH, hbpp, hleft, hright, htop, hbottom, haLen, hrLen, hgLen, hbLen, fun cs' hch' c hc => ?_⟩
  cases hch.symm.trans hch'
  have hblock := hpack.memRead_blkReg hch hc
  rwa [State.headerLoaded, commit_regs, hdrReadCommit_regs] at hblock

/-- Settles O46: the aLen field is aLenOut, RESULT_LEN counts the blocks of the depth, and an encoded plane that is not
empty takes at least two bytes. -/
theorem channelPresence : Obligations.ChannelPresence := by
  refine ⟨fun s t hmem ht hfault h24 => ?_, fun e f s t hf hffault hne hmem hlen h32 ht hfault => ?_⟩
  · obtain ⟨cs, hch, hpack⟩ := packResult_of_not_fault hmem ht hfault
    obtain rfl : [.r, .g, .b] = cs := Option.some.inj ((congrArg channels h24).symm.trans hch)
    refine ⟨?_, ?_⟩
    · rw [hpack.aLen_field, aLenOut_of_channels hch, if_pos h24]
    · rw [hpack.length]
      simp [packTotal, lenReg, Nat.add_assoc]
  · obtain ⟨cs, -, hpack⟩ := packResult_of_not_fault hmem ht hfault
    have hplane : memRead e.mem e.regs.srcAddr.toNat e.regs.srcLen.toNat ≠ [] := by
      rw [ne_eq, ← List.length_eq_zero_iff, memRead_length]
      exact fun h0 => hne (BitVec.eq_of_toNat_eq h0)
    rw [hpack.aLen_field, aLenOut, if_pos h32, hlen, rleEnc_resultLen hf hffault]
    exact (encodeRuns_scan _).two_le_bytes_length hplane

end Sys2Proof.Machine

/-! ## Continuation after a fault, and the steps that run no instruction (60_exceptions.md R222, R228) -/

namespace Sys2Proof.Machine

section Continuation

variable {i : Instr} {w : Word} {body : Body}

/-- No body reads LAST_CMD, a record for the host (R31). -/
theorem Command.body_with_lastCmd (h : Command i w body) (r : Regs) (m : Memory) (v : Word) :
    body { r with lastCmd := v } m = body r m := by
  cases h <;> rfl

/-- A command replaces LAST_CMD without reading it, so it does the same whichever word was recorded before
(40_host_interface.md R112). -/
theorem Command.exec_recordCommand (h : Command i w body) (v : Word) (s : State) :
    exec i (recordCommand v s) = exec i s := by
  have hbody : body (recordCommand v s).regs (recordCommand v s).mem = body s.regs s.mem :=
    h.body_with_lastCmd s.regs s.mem v
  rw [h.exec_eq, h.exec_eq]
  rcases runCommand_cases w body s with ⟨f, hf, he⟩ | ⟨c, hc, he⟩
  · rw [he, runCommand_error (hbody.trans hf)]
    rfl
  · rw [he, runCommand_ok (hbody.trans hc)]
    rfl

end Continuation

/-- What a faulting command leaves: the state before it, with its word recorded and the flags of the fault (R221). -/
theorem faultedState_eq_recordCommand (w : Word) (c : BitVec 8) (s : State) :
    faultedState w c s = recordCommand w (s.withStatus ⟨true, true, c⟩) := rfl

/-- Settles O21: the fault left only LAST_CMD, which the next command replaces, and flags, which it does not read. -/
theorem continuationAfterFault : Obligations.ContinuationAfterFault := by
  intro i j w v s t u hi hj ht hfault hu
  obtain ⟨_, hfirst⟩ := Command.of_encode hi
  obtain ⟨_, hnext⟩ := Command.of_encode hj
  obtain ⟨-, -, htf⟩ := hfirst.eq_faultedState_of_fault ht hfault
  generalize t.regs.status.fcode = code at htf
  subst htf
  have hwithout := hnext.exec_eq s
  obtain ⟨u₂, hu₂, hsame, hfaultEq, hfcodeEq⟩ := noCommandReadsAFlag j v s ⟨true, true, code⟩ _ hj hwithout
  obtain rfl : u = u₂ := by
    rw [faultedState_eq_recordCommand, hnext.exec_recordCommand, hu₂] at hu
    cases hu
    rfl
  exact ⟨_, hwithout, hsame, hfaultEq, hfcodeEq, hnext.status_of_not_fault hu⟩

/-- Settles O10: the step lemmas name the next state, and the byte read back is the rule of `writeByte`. -/
theorem idleAndHostWriteSteps : Obligations.IdleAndHostWriteSteps := by
  refine ⟨fun _ => step_idle, fun s a b rest hmem hp => ?_⟩
  have hread := fun x => readByte_writeByte hmem a.toNat x b
  exact ⟨_, step_memWrite hp, rfl, rfl, rfl, (hread _).trans (if_pos rfl), fun x hx => (hread x).trans (if_neg hx)⟩

end Sys2Proof.Machine

/-! ## Reset, and capacities that never overflow (70_reset_and_hazards.md R240, R241, R249) -/

namespace Sys2Proof.Machine

/-! ### The reset column -/

theorem getReg_reset (n : Reg) : getReg Regs.reset n = if n = .hdrPackType then 0x00000101#32 else 0x00000000#32 := by
  cases n <;> rfl

theorem regAt_eq_hdrPackType_iff {i : RegIdx} : regAt i = some .hdrPackType ↔ i = 0x13#6 :=
  ⟨fun h => (index_of_regAt i _ h).symm, fun h => h ▸ rfl⟩

/-- The reset column of R24 as the host reads it, reserved indices included (R26). -/
theorem readIndex_reset (i : RegIdx) :
    readIndex Regs.reset i = if i = 0x13#6 then 0x00000101#32 else 0x00000000#32 := by
  simp only [← regAt_eq_hdrPackType_iff]
  cases hi : regAt i with
  | none => rw [readIndex_of_reserved hi, if_neg (Option.some_ne_none _).symm]
  | some n => simp only [readIndex_of_regAt hi, getReg_reset, Option.some.injEq]

/-! ### Commands that do not end in OutputOverflow -/

theorem code_eq_outputOverflow_iff {f : BlockFault} : f.code = 0x13#8 ↔ f = .outputOverflow := by
  cases f <;> decide

/-- The range checks raise only AddressRange and BufferOverlap (40_host_interface.md R113). -/
theorem checkRanges_ne_outputOverflow (srcs dsts : List Range) : checkRanges srcs dsts ≠ some .outputOverflow := by
  unfold checkRanges
  split
  · split <;> nofun
  · nofun

/-- A command ends with FCODE 0x13 only where its body raises OutputOverflow (60_exceptions.md R218). -/
theorem Command.fcode_ne_outputOverflow {i : Instr} {w : Word} {body : Body} {s : State} (h : Command i w body)
    (hbody : body s.regs s.mem ≠ .error .outputOverflow) :
    ∃ t, exec i s = .next t ∧ t.regs.status.fcode ≠ 0x13#8 := by
  refine ⟨_, h.exec_eq s, ?_⟩
  rcases runCommand_cases w body s with ⟨f, hf, he⟩ | ⟨c, -, he⟩
  · rw [he]
    exact fun hcode => hbody (hf.trans (congrArg _ (code_eq_outputOverflow_iff.1 hcode)))
  · rw [he]
    exact (by decide : (0x00#8 : BitVec 8) ≠ 0x13#8)

section Capacity

variable {r : Regs} {m : Memory}

/-- A body that succeeds once its range checks pass does not raise OutputOverflow. -/
theorem ne_outputOverflow_of_checkRanges {b : Except BlockFault Commit} {srcs dsts : List Range}
    (hfault : ∀ f, checkRanges srcs dsts = some f → b = .error f)
    (hok : checkRanges srcs dsts = none → ∃ c, b = .ok c) : b ≠ .error .outputOverflow := by
  rintro rfl
  cases hc : checkRanges srcs dsts with
  | none =>
    obtain ⟨c, hb⟩ := hok hc
    cases hb
  | some f =>
    cases hfault f hc
    exact checkRanges_ne_outputOverflow srcs dsts hc

theorem rleEncBody_ne_outputOverflow (hlen : (encOut r m).length ≤ r.dstCap.toNat) :
    rleEncBody r m ≠ .error .outputOverflow :=
  ne_outputOverflow_of_checkRanges (fun _ => rleEncBody_of_checkRanges) fun hc => ⟨_, rleEncBody_ok.2 ⟨hc, hlen, rfl⟩⟩

theorem rleDecBody_ne_outputOverflow {out : List Byte}
    (hdec : rleDecode (memRead m r.srcAddr.toNat r.srcLen.toNat) = some out) (hlen : out.length ≤ r.dstCap.toNat) :
    rleDecBody r m ≠ .error .outputOverflow :=
  ne_outputOverflow_of_checkRanges (fun _ => rleDecBody_of_checkRanges)
    fun hc => ⟨_, rleDecBody_ok.2 ⟨hc, out, hdec, hlen, rfl⟩⟩

theorem planeMergeBody_ne_outputOverflow (hlen : 4 * imgPixels r ≤ r.dstCap.toNat) :
    planeMergeBody r m ≠ .error .outputOverflow := by
  cases hch : channels r.hdrBpp with
  | none => rw [planeMergeBody_of_no_channels hch]; nofun
  | some cs =>
    exact ne_outputOverflow_of_checkRanges (fun _ => planeMergeBody_of_checkRanges hch)
      fun hc => ⟨_, planeMergeBody_ok.2 ⟨cs, hch, hc, hlen, rfl⟩⟩

theorem hdrWriteBody_ne_outputOverflow (hlen : 32 ≤ r.dstCap.toNat) :
    hdrWriteBody r m ≠ .error .outputOverflow := by
  cases hch : channels r.hdrBpp with
  | none => rw [hdrWriteBody_of_no_channels hch]; nofun
  | some cs =>
    exact ne_outputOverflow_of_checkRanges (fun _ => hdrWriteBody_of_checkRanges hch)
      fun hc => ⟨_, hdrWriteBody_ok.2 ⟨Option.ne_none_iff_exists'.2 ⟨cs, hch⟩, hc, hlen, rfl⟩⟩

theorem grdPackBody_ne_outputOverflow {cs : List Channel} (hch : channels r.hdrBpp = some cs)
    (hlen : packTotal r cs ≤ r.dstCap.toNat) : grdPackBody r m ≠ .error .outputOverflow :=
  ne_outputOverflow_of_checkRanges (fun _ => grdPackBody_of_checkRanges hch)
    fun hc => ⟨_, grdPackBody_ok.2 ⟨cs, hch, hc, hlen, rfl⟩⟩

end Capacity

/-- The bound of R134 on the encoded length of SRC_LEN bytes. -/
theorem encOut_length_le (r : Regs) (m : Memory) : (encOut r m).length ≤ (3 * r.srcLen.toNat + 1) / 2 := by
  have hscan := (encodeRuns_scan (memRead m r.srcAddr.toNat r.srcLen.toNat)).two_mul_bytes_length_le
  rw [memRead_length] at hscan
  rw [encOut, rleEncode]
  omega

/-! ### The statements -/

/-- Settles O48: within its capacity, each body either passes its checks and succeeds, or raises another fault. -/
theorem capacitiesThatNeverOverflow : Obligations.CapacitiesThatNeverOverflow := by
  intro s cap wh noOverflow
  refine ⟨fun hcap => ?rleEnc, fun out hdec hout hcap => ?rleDec, fun hcap => ?planeMerge, fun hcap => ?hdrWrite,
    fun cs hch hcap => ?grdPack⟩
  case rleEnc =>
    exact Command.rleEnc.fcode_ne_outputOverflow (rleEncBody_ne_outputOverflow ((encOut_length_le _ _).trans hcap))
  case rleDec => exact Command.rleDec.fcode_ne_outputOverflow (rleDecBody_ne_outputOverflow hdec (hout.trans_le hcap))
  case planeMerge => exact Command.planeMerge.fcode_ne_outputOverflow (planeMergeBody_ne_outputOverflow hcap)
  case hdrWrite => exact Command.hdrWrite.fcode_ne_outputOverflow (hdrWriteBody_ne_outputOverflow hcap)
  case grdPack => exact Command.grdPack.fcode_ne_outputOverflow (grdPackBody_ne_outputOverflow hch hcap)

/-- Settles O8: the step lemma names the next state, and its registers are at the reset column. -/
theorem resetInputResetsRegistersOnly : Obligations.ResetInputResetsRegistersOnly :=
  fun _ _ hp => ⟨_, step_reset hp, rfl, rfl, rfl, rfl, readIndex_reset⟩

/-- Settles O9: after the reset input, and in the state right after reset, the registers are `Regs.reset`. -/
theorem resetRegisterValues : Obligations.ResetRegisterValues :=
  ⟨fun _ => readIndex_reset, readIndex_reset, rfl, rfl⟩

end Sys2Proof.Machine
